-- ==== Sys2Proof/Word.lean ====
section
/-! DEFINITION. The bit-vector types of the core: registers, words and instruction fields (spec/00_scope.md R6, R7; 10_state.md R20, R23, R26). -/

namespace Sys2Proof

/-- An 8-bit value: a general register, a timer, a memory byte (10 R20, R30; 20 R50). All values are unsigned (00 R6). -/
abbrev Byte := BitVec 8

/-- A 16-bit value: PC, I, a stack slot, an instruction word (10 R23, R26, R27; 30 R71). -/
abbrev Word := BitVec 16

/-- A 4-bit instruction field: a register index `x`, `y`, or the row count `n` (30 R71). -/
abbrev Nibble := BitVec 4

/-- The 12-bit instruction field `nnn` (30 R71). -/
abbrev Addr12 := BitVec 12

end Sys2Proof
end

