-- ==== Sys2Proof/Syntax.lean ====
section
/-! DEFINITION. The 34 instructions, one constructor per row of spec/opcode_table.json (spec/30_encoding.md R74). -/

namespace Sys2Proof

/-- The instructions of 30 R74, in the table's order. A field's type is its width in R71, so every value of a field is
one the encoding admits, and all of them are legal (R73). -/
inductive Instr where
  /-- 00E0 CLS (43 R171) -/
  | cls
  /-- 00EE RET (40 R100) -/
  | ret
  /-- 1nnn JP nnn (40 R101) -/
  | jp (nnn : Addr12)
  /-- 2nnn CALL nnn (40 R102) -/
  | call (nnn : Addr12)
  /-- 3xnn SE Vx, nn (40 R105) -/
  | seImm (x : Nibble) (nn : Byte)
  /-- 4xnn SNE Vx, nn (40 R106) -/
  | sneImm (x : Nibble) (nn : Byte)
  /-- 5xy0 SE Vx, Vy (40 R107) -/
  | seReg (x y : Nibble)
  /-- 6xnn LD Vx, nn (41 R123) -/
  | ldImm (x : Nibble) (nn : Byte)
  /-- 7xnn ADD Vx, nn (41 R124) -/
  | addImm (x : Nibble) (nn : Byte)
  /-- 8xy0 LD Vx, Vy (41 R125) -/
  | ldReg (x y : Nibble)
  /-- 8xy1 OR Vx, Vy (41 R126) -/
  | orReg (x y : Nibble)
  /-- 8xy2 AND Vx, Vy (41 R127) -/
  | andReg (x y : Nibble)
  /-- 8xy3 XOR Vx, Vy (41 R128) -/
  | xorReg (x y : Nibble)
  /-- 8xy4 ADD Vx, Vy (41 R129) -/
  | addReg (x y : Nibble)
  /-- 8xy5 SUB Vx, Vy (41 R130) -/
  | subReg (x y : Nibble)
  /-- 8xy6 SHR Vx (41 R131); the field `y` is decoded and ignored (30 R79) -/
  | shr (x y : Nibble)
  /-- 8xy7 SUBN Vx, Vy (41 R132) -/
  | subnReg (x y : Nibble)
  /-- 8xyE SHL Vx (41 R133); the field `y` is decoded and ignored (30 R79) -/
  | shl (x y : Nibble)
  /-- 9xy0 SNE Vx, Vy (40 R108) -/
  | sneReg (x y : Nibble)
  /-- Annn LD I, nnn (42 R150) -/
  | ldI (nnn : Addr12)
  /-- Bnnn JP V0, nnn (40 R103) -/
  | jpV0 (nnn : Addr12)
  /-- Cxnn RND Vx, nn (41 R134) -/
  | rnd (x : Nibble) (nn : Byte)
  /-- Dxyn DRW Vx, Vy, n (43 R172) -/
  | drw (x y n : Nibble)
  /-- Ex9E SKP Vx (44 R185) -/
  | skp (x : Nibble)
  /-- ExA1 SKNP Vx (44 R186) -/
  | sknp (x : Nibble)
  /-- Fx07 LD Vx, DT (44 R188) -/
  | ldVxDt (x : Nibble)
  /-- Fx0A LD Vx, K (44 R187) -/
  | ldVxK (x : Nibble)
  /-- Fx15 LD DT, Vx (44 R189) -/
  | ldDtVx (x : Nibble)
  /-- Fx18 LD ST, Vx (44 R190) -/
  | ldStVx (x : Nibble)
  /-- Fx1E ADD I, Vx (42 R151) -/
  | addI (x : Nibble)
  /-- Fx29 LD F, Vx (42 R152) -/
  | ldF (x : Nibble)
  /-- Fx33 LD B, Vx (42 R153) -/
  | ldB (x : Nibble)
  /-- Fx55 LD [I], Vx (42 R155) -/
  | ldMemVx (x : Nibble)
  /-- Fx65 LD Vx, [I] (42 R156) -/
  | ldVxMem (x : Nibble)
  deriving DecidableEq, Repr

/-- The row of spec/opcode_table.json an instruction belongs to, by the table's mnemonic. -/
def Instr.mnemonic : Instr → String
  | .cls => "CLS"
  | .ret => "RET"
  | .jp _ => "JP_nnn"
  | .call _ => "CALL_nnn"
  | .seImm _ _ => "SE_Vx__nn"
  | .sneImm _ _ => "SNE_Vx__nn"
  | .seReg _ _ => "SE_Vx__Vy"
  | .ldImm _ _ => "LD_Vx__nn"
  | .addImm _ _ => "ADD_Vx__nn"
  | .ldReg _ _ => "LD_Vx__Vy"
  | .orReg _ _ => "OR_Vx__Vy"
  | .andReg _ _ => "AND_Vx__Vy"
  | .xorReg _ _ => "XOR_Vx__Vy"
  | .addReg _ _ => "ADD_Vx__Vy"
  | .subReg _ _ => "SUB_Vx__Vy"
  | .shr _ _ => "SHR_Vx"
  | .subnReg _ _ => "SUBN_Vx__Vy"
  | .shl _ _ => "SHL_Vx"
  | .sneReg _ _ => "SNE_Vx__Vy"
  | .ldI _ => "LD_I__nnn"
  | .jpV0 _ => "JP_V0__nnn"
  | .rnd _ _ => "RND_Vx__nn"
  | .drw _ _ _ => "DRW_Vx__Vy__n"
  | .skp _ => "SKP_Vx"
  | .sknp _ => "SKNP_Vx"
  | .ldVxDt _ => "LD_Vx__DT"
  | .ldVxK _ => "LD_Vx__K"
  | .ldDtVx _ => "LD_DT__Vx"
  | .ldStVx _ => "LD_ST__Vx"
  | .addI _ => "ADD_I__Vx"
  | .ldF _ => "LD_F__Vx"
  | .ldB _ => "LD_B__Vx"
  | .ldMemVx _ => "LD__I___Vx"
  | .ldVxMem _ => "LD_Vx___I"

/-! ### Assembler syntax: labels for a reader, no behaviour of the machine (30 R80 to R82; log 34) -/

/-- A hexadecimal digit. -/
def hexDigit (d : Nibble) : String :=
  (["0", "1", "2", "3", "4", "5", "6", "7", "8", "9", "A", "B", "C", "D", "E", "F"][d.toNat]?).getD "0"

/-- A general register: V0 to V9, VA to VF (30 R80). -/
def regName (x : Nibble) : String := "V" ++ hexDigit x

/-- The literal `n`, in hexadecimal (30 R80). -/
def nibbleLit (n : Nibble) : String := "0x" ++ hexDigit n

/-- The literal `nn`, in hexadecimal (30 R80). -/
def byteLit (nn : Byte) : String := "0x" ++ hexDigit (nn.extractLsb' 4 4) ++ hexDigit (nn.extractLsb' 0 4)

/-- The literal `nnn`, in hexadecimal (30 R80). -/
def addrLit (nnn : Addr12) : String :=
  "0x" ++ hexDigit (nnn.extractLsb' 8 4) ++ hexDigit (nnn.extractLsb' 4 4) ++ hexDigit (nnn.extractLsb' 0 4)

/-- A shift takes one register, and a second one where `y` is not 0 (30 R82). -/
def shiftOperands (x y : Nibble) : List String := if y = 0#4 then [regName x] else [regName x, regName y]

/-- The line of assembly an instruction is: its operation and its operands, destination first (30 R80 to R82). -/
def Instr.assembly : Instr → String × List String
  | .cls => ("CLS", [])
  | .ret => ("RET", [])
  | .jp nnn => ("JP", [addrLit nnn])
  | .call nnn => ("CALL", [addrLit nnn])
  | .seImm x nn => ("SE", [regName x, byteLit nn])
  | .sneImm x nn => ("SNE", [regName x, byteLit nn])
  | .seReg x y => ("SE", [regName x, regName y])
  | .ldImm x nn => ("LD", [regName x, byteLit nn])
  | .addImm x nn => ("ADD", [regName x, byteLit nn])
  | .ldReg x y => ("LD", [regName x, regName y])
  | .orReg x y => ("OR", [regName x, regName y])
  | .andReg x y => ("AND", [regName x, regName y])
  | .xorReg x y => ("XOR", [regName x, regName y])
  | .addReg x y => ("ADD", [regName x, regName y])
  | .subReg x y => ("SUB", [regName x, regName y])
  | .shr x y => ("SHR", shiftOperands x y)
  | .subnReg x y => ("SUBN", [regName x, regName y])
  | .shl x y => ("SHL", shiftOperands x y)
  | .sneReg x y => ("SNE", [regName x, regName y])
  | .ldI nnn => ("LD", ["I", addrLit nnn])
  | .jpV0 nnn => ("JP", ["V0", addrLit nnn])
  | .rnd x nn => ("RND", [regName x, byteLit nn])
  | .drw x y n => ("DRW", [regName x, regName y, nibbleLit n])
  | .skp x => ("SKP", [regName x])
  | .sknp x => ("SKNP", [regName x])
  | .ldVxDt x => ("LD", [regName x, "DT"])
  | .ldVxK x => ("LD", [regName x, "K"])
  | .ldDtVx x => ("LD", ["DT", regName x])
  | .ldStVx x => ("LD", ["ST", regName x])
  | .addI x => ("ADD", ["I", regName x])
  | .ldF x => ("LD", ["F", regName x])
  | .ldB x => ("LD", ["B", regName x])
  | .ldMemVx x => ("LD", ["[I]", regName x])
  | .ldVxMem x => ("LD", [regName x, "[I]"])

end Sys2Proof
end

