-- ==== Sys2Proof/Decode.lean ====
section
/-! DEFINITION. The decoder (spec/30_encoding.md R71, R75, R76), total on every word and every byte string, and the encoder. -/

namespace Sys2Proof

/-- `class`: bits 15:12 of the word (30 R71). -/
def classOf (w : Word) : Nibble := w.extractLsb' 12 4

/-- `x`: bits 11:8 (30 R71). -/
def fieldX (w : Word) : Nibble := w.extractLsb' 8 4

/-- `y`: bits 7:4 (30 R71). -/
def fieldY (w : Word) : Nibble := w.extractLsb' 4 4

/-- `n`: bits 3:0 (30 R71). -/
def fieldN (w : Word) : Nibble := w.extractLsb' 0 4

/-- `nn`: bits 7:0 (30 R71). -/
def fieldNN (w : Word) : Byte := w.extractLsb' 0 8

/-- `nnn`: bits 11:0 (30 R71). -/
def fieldNNN (w : Word) : Addr12 := w.extractLsb' 0 12

/-- What a word decodes to: one of the 34 instructions, or UNKNOWN with the offending word (30 R75, R78). -/
inductive Decoded where
  | instr (i : Instr)
  | unknown (w : Word)
  deriving DecidableEq, Repr

/-- Class 0: all sixteen bits must match (30 R75, R76). -/
def decodeClass0 (w : Word) : Decoded :=
  if w = 0x00E0#16 then .instr .cls
  else if w = 0x00EE#16 then .instr .ret
  else .unknown w

/-- Class 8: the subcode is `n` (30 R75). PRESUMED, unsafe: the subcodes 5, 6, 7 and E, log 9. -/
def decodeClass8 (w : Word) : Decoded :=
  match (fieldN w).toNat with
  | 0x0 => .instr (.ldReg (fieldX w) (fieldY w))
  | 0x1 => .instr (.orReg (fieldX w) (fieldY w))
  | 0x2 => .instr (.andReg (fieldX w) (fieldY w))
  | 0x3 => .instr (.xorReg (fieldX w) (fieldY w))
  | 0x4 => .instr (.addReg (fieldX w) (fieldY w))
  | 0x5 => .instr (.subReg (fieldX w) (fieldY w))
  | 0x6 => .instr (.shr (fieldX w) (fieldY w))
  | 0x7 => .instr (.subnReg (fieldX w) (fieldY w))
  | 0xE => .instr (.shl (fieldX w) (fieldY w))
  | _ => .unknown w

/-- Class E: the subcode is `nn` (30 R75). -/
def decodeClassE (w : Word) : Decoded :=
  if fieldNN w = 0x9E#8 then .instr (.skp (fieldX w))
  else if fieldNN w = 0xA1#8 then .instr (.sknp (fieldX w))
  else .unknown w

/-- Class F: the subcode is `nn` (30 R75). -/
def decodeClassF (w : Word) : Decoded :=
  if fieldNN w = 0x07#8 then .instr (.ldVxDt (fieldX w))
  else if fieldNN w = 0x0A#8 then .instr (.ldVxK (fieldX w))
  else if fieldNN w = 0x15#8 then .instr (.ldDtVx (fieldX w))
  else if fieldNN w = 0x18#8 then .instr (.ldStVx (fieldX w))
  else if fieldNN w = 0x1E#8 then .instr (.addI (fieldX w))
  else if fieldNN w = 0x29#8 then .instr (.ldF (fieldX w))
  else if fieldNN w = 0x33#8 then .instr (.ldB (fieldX w))
  else if fieldNN w = 0x55#8 then .instr (.ldMemVx (fieldX w))
  else if fieldNN w = 0x65#8 then .instr (.ldVxMem (fieldX w))
  else .unknown w

/-- The decoding procedure of 30 R75: total, patterns matched literally (DESIGN CHOICE of the spec, unsafe: R76, log 19). -/
def decode (w : Word) : Decoded :=
  match (classOf w).toNat with
  | 0x0 => decodeClass0 w
  | 0x1 => .instr (.jp (fieldNNN w))
  | 0x2 => .instr (.call (fieldNNN w))
  | 0x3 => .instr (.seImm (fieldX w) (fieldNN w))
  | 0x4 => .instr (.sneImm (fieldX w) (fieldNN w))
  | 0x5 => if fieldN w = 0#4 then .instr (.seReg (fieldX w) (fieldY w)) else .unknown w
  | 0x6 => .instr (.ldImm (fieldX w) (fieldNN w))
  | 0x7 => .instr (.addImm (fieldX w) (fieldNN w))
  | 0x8 => decodeClass8 w
  | 0x9 => if fieldN w = 0#4 then .instr (.sneReg (fieldX w) (fieldY w)) else .unknown w
  | 0xA => .instr (.ldI (fieldNNN w))
  | 0xB => .instr (.jpV0 (fieldNNN w))
  | 0xC => .instr (.rnd (fieldX w) (fieldNN w))
  | 0xD => .instr (.drw (fieldX w) (fieldY w) (fieldN w))
  | 0xE => decodeClassE w
  | _ => decodeClassF w

/-- A 16-bit word as memory holds it: the high byte at the lower address (20 R52). -/
def wordBytes (w : Word) : List Byte := [w.extractLsb' 8 8, w.extractLsb' 0 8]

/-- The word two consecutive bytes form, `hi ++ lo` (20 R52). -/
def wordOf (hi lo : Byte) : Word := hi ++ lo

/-- Why a byte string holds no whole instruction word. -/
inductive DecodeError where
  /-- fewer than the two bytes every instruction has (30 R71) -/
  | truncated
  deriving DecidableEq, Repr

/-- Decoding a byte string: the first instruction and the bytes after it. Total: a string of fewer than two bytes is
rejected by name, an unmapped word decodes to `Decoded.unknown` (30 R71, R75). -/
def decodeBytes : List Byte → Except DecodeError (Decoded × List Byte)
  | hi :: lo :: rest => .ok (decode (wordOf hi lo), rest)
  | _ => .error .truncated

/-- Format NNN: class and a 12-bit address (30 R72). -/
def packNNN (c : Nibble) (nnn : Addr12) : Word := c ++ nnn

/-- Format XNN: class, register and an 8-bit literal or subcode (30 R72; XSS has the same layout). -/
def packXNN (c x : Nibble) (nn : Byte) : Word := c ++ (x ++ nn)

/-- Format XYN: class, two registers and a literal or subcode (30 R72). -/
def packXYN (c x y n : Nibble) : Word := c ++ (x ++ (y ++ n))

/-- The encoder, from the opcode map's patterns (30 R72, R74). -/
def encode : Instr → Word
  | .cls => 0x00E0#16
  | .ret => 0x00EE#16
  | .jp nnn => packNNN 0x1#4 nnn
  | .call nnn => packNNN 0x2#4 nnn
  | .seImm x nn => packXNN 0x3#4 x nn
  | .sneImm x nn => packXNN 0x4#4 x nn
  | .seReg x y => packXYN 0x5#4 x y 0x0#4
  | .ldImm x nn => packXNN 0x6#4 x nn
  | .addImm x nn => packXNN 0x7#4 x nn
  | .ldReg x y => packXYN 0x8#4 x y 0x0#4
  | .orReg x y => packXYN 0x8#4 x y 0x1#4
  | .andReg x y => packXYN 0x8#4 x y 0x2#4
  | .xorReg x y => packXYN 0x8#4 x y 0x3#4
  | .addReg x y => packXYN 0x8#4 x y 0x4#4
  | .subReg x y => packXYN 0x8#4 x y 0x5#4
  | .shr x y => packXYN 0x8#4 x y 0x6#4
  | .subnReg x y => packXYN 0x8#4 x y 0x7#4
  | .shl x y => packXYN 0x8#4 x y 0xE#4
  | .sneReg x y => packXYN 0x9#4 x y 0x0#4
  | .ldI nnn => packNNN 0xA#4 nnn
  | .jpV0 nnn => packNNN 0xB#4 nnn
  | .rnd x nn => packXNN 0xC#4 x nn
  | .drw x y n => packXYN 0xD#4 x y n
  | .skp x => packXNN 0xE#4 x 0x9E#8
  | .sknp x => packXNN 0xE#4 x 0xA1#8
  | .ldVxDt x => packXNN 0xF#4 x 0x07#8
  | .ldVxK x => packXNN 0xF#4 x 0x0A#8
  | .ldDtVx x => packXNN 0xF#4 x 0x15#8
  | .ldStVx x => packXNN 0xF#4 x 0x18#8
  | .addI x => packXNN 0xF#4 x 0x1E#8
  | .ldF x => packXNN 0xF#4 x 0x29#8
  | .ldB x => packXNN 0xF#4 x 0x33#8
  | .ldMemVx x => packXNN 0xF#4 x 0x55#8
  | .ldVxMem x => packXNN 0xF#4 x 0x65#8

/-- An instruction as memory holds it (20 R52). -/
def encodeBytes (i : Instr) : List Byte := wordBytes (encode i)

/-- The instruction of a decoding, if it is one. -/
def Decoded.toInstr? : Decoded → Option Instr
  | .instr i => some i
  | .unknown _ => none

/-- The instruction the decoder reads from the word whose low `nbits` bits are those of `w` and whose other bits are 0,
laid out in memory order. -/
def decodeTableWord (nbits w : Nat) : Option Instr :=
  match decodeBytes (wordBytes (BitVec.ofNat 16 (w % 2 ^ nbits))) with
  | .ok (d, _) => d.toInstr?
  | .error _ => none

end Sys2Proof
end

