-- ==== Sys2Proof/Config.lean ====
section
/-! DEFINITION. The parameters of the core (spec/00_scope.md R5) and the free values its inputs take where the host's
schedule does not fix them. -/

namespace Sys2Proof

/-- The 16 key levels a STEP receives: key `k` is down when entry `k` is true (10 R35). -/
abbrev Keys := Vector Bool 16

/-- `MEM_SIZE`: bytes of memory, addresses 0x000..0xFFF (00 R5, 20 R50). -/
abbrev Config.memSize : Nat := 4096

/-- `FONT_BASE`: first byte of the font table (00 R5). -/
abbrev Config.fontBase : Nat := 0x050

/-- `FONT_END`: last byte of the font table (00 R5). -/
abbrev Config.fontEnd : Nat := 0x09F

/-- `FONT_STRIDE`: bytes per font sprite (00 R5). -/
abbrev Config.fontStride : Nat := 5

/-- `PROG_BASE`: first byte of the program image, and the reset value of PC (00 R5, 10 R23). -/
abbrev Config.progBase : Nat := 0x200

/-- `PROG_MAX`: the largest program image in bytes; an image of exactly this length is accepted (00 R5, 90 C3). -/
abbrev Config.progMax : Nat := 3584

/-- `NREGS`: general registers V0..VF (00 R5). -/
abbrev Config.nRegs : Nat := 16

/-- `XLEN`: bits of a general register, a timer and a memory byte; the width of `Byte` (00 R5, R6). -/
abbrev Config.xlen : Nat := 8

/-- `ILEN`: bits of I and of PC; the width of `Word` (00 R5). -/
abbrev Config.ilen : Nat := 16

/-- `INSN_BYTES`: every instruction is 2 bytes (00 R5, 30 R71). -/
abbrev Config.insnBytes : Nat := 2

/-- `STACK_CAP`: return addresses the call stack holds (00 R5). -/
abbrev Config.stackCap : Nat := 16

/-- `DISP_W`: display columns (00 R5). -/
abbrev Config.dispW : Nat := 64

/-- `DISP_H`: display rows (00 R5). -/
abbrev Config.dispH : Nat := 32

/-- `NKEYS`: keypad inputs (00 R5). -/
abbrev Config.nKeys : Nat := 16

/-- FONT[0..4], the glyph of digit 0: the bytes the source gives (00 R5, 20 R59). -/
def Config.fontDigit0 : List Byte := [0xF0, 0x90, 0x90, 0x90, 0xF0]

/-- The parameter `FONT[5..79]`, the glyphs of digits 1 to F, at the default of 20 R59. PRESUMED, unsafe: the spec takes the
default from general knowledge (D22), log 8. -/
def Config.fontRest : List Byte :=
  [0x20, 0x60, 0x20, 0x20, 0x70] ++ [0xF0, 0x10, 0xF0, 0x80, 0xF0] ++ [0xF0, 0x10, 0xF0, 0x10, 0xF0] ++
  [0x90, 0x90, 0xF0, 0x10, 0x10] ++ [0xF0, 0x80, 0xF0, 0x10, 0xF0] ++ [0xF0, 0x80, 0xF0, 0x90, 0xF0] ++
  [0xF0, 0x10, 0x20, 0x40, 0x40] ++ [0xF0, 0x90, 0xF0, 0x90, 0xF0] ++ [0xF0, 0x90, 0xF0, 0x10, 0xF0] ++
  [0xF0, 0x90, 0xF0, 0x90, 0x90] ++ [0xE0, 0x90, 0xE0, 0x90, 0xE0] ++ [0xF0, 0x80, 0x80, 0x80, 0xF0] ++
  [0xE0, 0x90, 0x90, 0x90, 0xE0] ++ [0xF0, 0x80, 0xF0, 0x80, 0xF0] ++ [0xF0, 0x80, 0xF0, 0x80, 0x80]

/-- The parameter `FONT[0..79]` (00 R5, 20 R59). -/
def Config.font : List Byte := Config.fontDigit0 ++ Config.fontRest

/-- `TIMER_HZ`: nominal TICK rate; no rule depends on it (00 R5). -/
abbrev Config.timerHz : Nat := 60

/-- `INSN_RATE`: OPEN, "a configuration value, not architecturally fixed"; no rule reads it (00 R5, 70 R253, log 26). -/
opaque Config.insnRate : Nat

/-- The random byte of the host operation with this number, where the schedule does not give one: any byte, no law
(10 R36, 41 R134, U1). A free value, log 5. -/
opaque Config.freeRnd : Nat → Byte

/-- The key levels of the host operation with this number, where the schedule does not give them: any 16 levels, no
relation between successive samples (10 R35, U17). A free value, log 6. -/
opaque Config.freeKeys : Nat → Keys

end Sys2Proof
end

