-- ==== Sys2Proof/Machine/State.lean ====
section
/-! DEFINITION. The state of the core (spec/10_state.md), the conditions (spec/60_exceptions.md R200), the host's
operations (R223) and the state after RESET (10 R41). -/

namespace Sys2Proof.Machine

/-- The fatal conditions of 60 R200, each with the information it carries (log 25). -/
inductive FatalCondition where
  /-- RESET with an image longer than 3584 bytes; carries the length (60 R201) -/
  | programTooLarge (len : Nat)
  /-- an access at or above 4096 by a fetch, Dxyn, Fx33, Fx55 or Fx65; carries the lowest such address (60 R202) -/
  | addressOutOfRange (addr : Nat)
  /-- 2nnn with SP = 16 (60 R203) -/
  | stackOverflow
  /-- 00EE with SP = 0 (60 R204) -/
  | stackUnderflow
  /-- Ex9E or ExA1 with V[x] > 15; carries the index (60 R206; DESIGN CHOICE of the spec, safe, log 18) -/
  | keyIndexOutOfRange (k : Byte)
  deriving DecidableEq, Repr

/-- The one recoverable condition of 60 R200, a diagnostic output of a STEP (60 R205). -/
inductive Diagnostic where
  /-- an unmapped word was executed as a no-operation; carries the word (30 R78) -/
  | unknownInstruction (w : Word)
  deriving DecidableEq, Repr

/-- The cause in HALT: a fatal condition or the host's STOP (10 R34). -/
inductive HaltCause where
  | fatal (c : FatalCondition)
  | hostStop
  deriving DecidableEq, Repr

/-- The run/halt latch: RUNNING or HALTED(cause) (10 R34). -/
inductive Halt where
  | running
  | halted (cause : HaltCause)
  deriving DecidableEq, Repr, Inhabited

/-- The five host-issued operations, the only ones that change the core (00 R12, 60 R223). -/
inductive HostOp where
  | reset (image : List Byte)
  | step (keys : Keys) (rnd : Byte)
  | tick
  | consumeFrame
  | stop
  deriving DecidableEq, Repr

/-- The display: 32 rows of 64 cells, lit or not (10 R32). -/
abbrev Display := Vector (Vector Bool 64) 32

/-- Memory: the listed bytes by address, in the canonical form `Memory.wf`; an unlisted address reads as what RESET of
an empty image puts there (70 R241, log 24). -/
abbrev Memory := List Host.Cell

/-- Everything the spec gives the machine (10 §1), then three fields of the model's own. -/
structure State where
  /-- V0..VF; V[15] is VF (10 R20, R22) -/
  v : Vector Byte 16
  /-- the index register I (10 R26) -/
  i : Word
  /-- PC: between steps, the address of the next instruction (10 R23) -/
  pc : Word
  /-- STACK[0..15] (10 R27) -/
  stack : Vector Word 16
  /-- SP: the call depth, 0..16 (10 R27, R28) -/
  sp : Fin 17
  /-- DT, the delay timer (10 R30) -/
  dt : Byte
  /-- ST, the sound timer (10 R30, R31) -/
  st : Byte
  /-- DISP[r][c] (10 R32) -/
  disp : Display
  /-- DIRTY (10 R33) -/
  dirty : Bool
  /-- HALT (10 R34) -/
  halt : Halt
  /-- MEM (20 R50) -/
  mem : Memory
  /-- MODEL'S OWN: the host's next operations, oldest first; where it is empty the host issues a STEP with free inputs
  (00 R12; DESIGN CHOICE, log 7) -/
  host : List HostOp
  /-- MODEL'S OWN: how many host operations have been performed, the argument of the free inputs (DESIGN CHOICE, log 5) -/
  opNo : Nat
  /-- MODEL'S OWN: the diagnostic output of the most recent STEP (30 R78, 10 R40; DESIGN CHOICE, log 20) -/
  diag : Option Diagnostic
  deriving DecidableEq, Repr, Inhabited

/-- Why a run is counted as failed. No step answers a fault: the spec describes what a fatal condition does to the
state, so a STEP that raises one answers the next state with HALT latched (60 R207, R209). -/
inductive Fault where
  /-- HALT holds this fatal condition. Read off a state by `State.verdict` (Safety.lean), raised by no step. Safe: it
  only counts a described state as a failed run, as 60 R207 demands (log 2). -/
  | fatal (c : FatalCondition)
  deriving DecidableEq, Repr

/-- Why the model has no meaning to give. -/
inductive Refusal where
  /-- An instruction of the table without a meaning, by its mnemonic. Raised by exec's arms only; no arm raises it. Safe. -/
  | notModelled (mnemonic : String)
  /-- A STEP on a machine whose RESET failed with ProgramTooLarge: the machine does not exist and must not step (70 R243,
  92 D38). Raised by the STEP operation. Safe (log 3). -/
  | machineNotConstructed
  deriving DecidableEq, Repr

/-- The machine after RESET with an empty image (10 R41, 70 R240): memory with nothing listed reads as the font table
and zeros. PC is the source's; the zeros are the spec's decisions D2 to D6 (DESIGN CHOICE of the spec, unsafe, log 1). -/
def State.reset : State where
  v := Vector.replicate 16 0#8
  i := 0#16
  pc := 0x0200#16
  stack := Vector.replicate 16 0#16
  sp := 0
  dt := 0#8
  st := 0#8
  disp := Vector.replicate 32 (Vector.replicate 64 false)
  dirty := false
  halt := .running
  mem := []
  host := []
  opNo := 0
  diag := none

end Sys2Proof.Machine
end

