-- ==== Sys2Proof/Machine/Ops.lean ====
section
/-! DEFINITION. The named operations over registers, memory, the display and the stack, and raising a fatal condition
(spec/00_scope.md R8 to R10; 20_memory.md; 60_exceptions.md R207, R209). -/

namespace Sys2Proof.Machine

/-! ### General registers -/

/-- `V[x]` (00 R8). -/
def State.getV (s : State) (x : Nibble) : Byte := s.v[x.toNat]'x.isLt

/-- `V[x] <- b` (00 R8). -/
def State.setV (s : State) (x : Nibble) (b : Byte) : State := { s with v := s.v.set x.toNat b x.isLt }

/-- `VF <- b`: VF is V[15] (00 R8, 10 R22). -/
def State.setVF (s : State) (b : Byte) : State := s.setV 15#4 b

/-- `V[k] <- bytes[k - k0]` in ascending order from `V[k0]`: the register side of Fx65 (42 R156). -/
def setVs : Nat → List Byte → State → State
  | _, [], s => s
  | k, b :: bs, s => setVs (k + 1) bs (s.setV (BitVec.ofNat 4 k) b)

/-- The bytes `V[0], …, V[n-1]` (42 R155). -/
def getVs (s : State) (n : Nat) : List Byte := (List.range n).map (fun k => s.getV (BitVec.ofNat 4 k))

/-! ### Program counter -/

/-- The advance by 2 that follows the fetch, before execution (10 R24, 30 R70): the state whose PC is `npc`. -/
def State.advance (s : State) : State := { s with pc := s.pc + 2#16 }

/-- `pc <- target` (00 R8). -/
def State.jump (s : State) (target : Word) : State := { s with pc := target }

/-- A skip on a state whose PC is `npc`: `pc <- npc + 2` when the condition holds (40 R109). -/
def State.skipIf (s : State) (taken : Bool) : State := if taken then { s with pc := s.pc + 2#16 } else s

/-! ### Conditions -/

/-- `raise c`: HALT ← HALTED(c) and nothing else. A meaning applies it to the state before the step, so PC still
addresses the instruction and nothing of it is committed (60 R207, R209; DESIGN CHOICE of the spec, log 30). -/
def State.raise (s : State) (c : FatalCondition) : State := { s with halt := .halted (.fatal c) }

/-- The numeric codes of the fatal conditions (60 R200). -/
def FatalCondition.code : FatalCondition → Nat
  | .programTooLarge _ => 1
  | .addressOutOfRange _ => 2
  | .stackOverflow => 3
  | .stackUnderflow => 4
  | .keyIndexOutOfRange _ => 6

/-- The numeric code of the recoverable condition (60 R200). -/
def Diagnostic.code : Diagnostic → Nat
  | .unknownInstruction _ => 5

/-! ### Memory -/

/-- The font table the machine holds after RESET: the parameter FONT[0..79] (20 R59, 70 R241; log 8). -/
def fontTable : List Byte := Config.font

/-- What an unlisted address reads as: the contents RESET gives it before any image, the font table and zeros (70 R240,
R241; log 24). -/
def resetByte (a : Nat) : Byte :=
  if Config.fontBase ≤ a ∧ a ≤ Config.fontEnd then (fontTable[a - Config.fontBase]?).getD 0#8 else 0#8

/-- The byte at an address (20 R50, R56). -/
def Memory.read : Memory → Nat → Byte
  | [], a => resetByte a
  | (a', b) :: rest, a => if a' = a then b else Memory.read rest a

/-- Keeping the canonical form: the byte an unlisted address reads as is not listed. -/
def Memory.cons (a : Nat) (b : Byte) (rest : Memory) : Memory := if b = resetByte a then rest else (a, b) :: rest

/-- Insertion in address order. -/
def Memory.insert (a : Nat) (b : Byte) : Memory → Memory
  | [] => Memory.cons a b []
  | (a', b') :: rest =>
    if a < a' then Memory.cons a b ((a', b') :: rest)
    else if a = a' then Memory.cons a b rest
    else (a', b') :: Memory.insert a b rest

/-- Storing a byte; every address below 4096 is writable (20 R58, log 32), at or above 4096 the access does not happen
(00 R9, 20 R51). -/
def Memory.write (m : Memory) (a : Nat) (b : Byte) : Memory :=
  if a < Config.memSize then Memory.insert a b m else m

/-- Storing bytes in ascending order from an address (20 R52, R55). -/
def Memory.writeBytes : Memory → Nat → List Byte → Memory
  | m, _, [] => m
  | m, a, b :: bs => Memory.writeBytes (Memory.write m a b) (a + 1) bs

/-- Reading `n` bytes in ascending order from an address (20 R54). -/
def Memory.readBytes (m : Memory) (a n : Nat) : List Byte := (List.range n).map (fun k => Memory.read m (a + k))

/-- The canonical form: addresses below 4096 and strictly rising, no byte listed that an unlisted address reads as. -/
def Memory.wf : Memory → Bool
  | [] => true
  | (a, b) :: rest =>
    decide (a < Config.memSize) && b != resetByte a && rest.all (fun c => decide (a < c.1)) && Memory.wf rest

/-- The lowest address of `base, …, base + len - 1` that is at or above 4096, if any. The sums are naturals, not
truncated (00 R9, 20 R51, 60 R202, R208; DESIGN CHOICE of the spec, safe, log 25). -/
def firstOutOfRange (base len : Nat) : Option Nat :=
  ((List.range len).map (fun k => base + k)).find? (fun a => decide (Config.memSize ≤ a))

/-- The range check of a multi-byte access: AddressOutOfRange before anything is written, else the access (60 R209). -/
def State.checked (s : State) (base len : Nat) (access : State) : State :=
  match firstOutOfRange base len with
  | some a => s.raise (.addressOutOfRange a)
  | none => access

/-! ### Call stack -/

/-- `SP <- SP + 1; STACK[SP - 1] <- ret`, or none where SP = 16 (40 R102; the slot is SP − 1, log 28). -/
def State.push (s : State) (ret : Word) : Option State :=
  if h : s.sp.val < 16 then
    some { s with sp := ⟨s.sp.val + 1, Nat.succ_lt_succ h⟩, stack := s.stack.set s.sp.val ret h }
  else none

/-- `STACK[SP - 1]` and SP ← SP − 1, or none where SP = 0; the slot keeps its contents (40 R100). -/
def State.pop (s : State) : Option (Word × State) :=
  if h : 0 < s.sp.val then
    some (s.stack[s.sp.val - 1]'(Nat.lt_of_lt_of_le (Nat.sub_lt h Nat.one_pos) (Nat.le_of_lt_succ s.sp.isLt)),
      { s with sp := ⟨s.sp.val - 1, Nat.lt_of_le_of_lt (Nat.sub_le _ _) s.sp.isLt⟩ })
  else none

/-! ### Display cells -/

/-- `DISP[r][c]`; a position outside the 64 × 32 grid is no cell and reads unlit (10 R32). -/
def Display.cell (d : Display) (r c : Nat) : Bool := if h : r < 32 ∧ c < 64 then (d[r]'h.1)[c]'h.2 else false

/-- `DISP[r][c] <- b`; outside the grid a no-op (43 R172: clipped). -/
def Display.setCell (d : Display) (r c : Nat) (b : Bool) : Display :=
  if h : r < 32 ∧ c < 64 then d.set r ((d[r]'h.1).set c b h.2) h.1 else d

/-- The blank display (10 R32). -/
def Display.blank : Display := Vector.replicate 32 (Vector.replicate 64 false)

/-! ### Inputs of the current STEP -/

/-- KEYS of the STEP being executed: those of the pending STEP operation, else free (10 R35, log 6). -/
def State.keys (s : State) : Keys :=
  match s.host with
  | .step keys _ :: _ => keys
  | _ => Config.freeKeys s.opNo

/-- The random byte of the STEP being executed: that of the pending STEP operation, else free (10 R36, log 5). -/
def State.rnd (s : State) : Byte :=
  match s.host with
  | .step _ rnd :: _ => rnd
  | _ => Config.freeRnd s.opNo

/-- The host operation at the head of the schedule is done. -/
def State.endOp (s : State) : State := { s with host := s.host.tail, opNo := s.opNo + 1 }

/-- The end of a STEP: its diagnostic output, and the operation is done (30 R78, 10 R39). -/
def State.endStep (s : State) (d : Option Diagnostic) : State := { s.endOp with diag := d }

end Sys2Proof.Machine
end

