-- ==== Sys2Proof/Machine/Flags.lean ====
section
/-! DEFINITION. Every flag computation of the core (spec/10_state.md R22): the value VF receives, from the operands as
they were before the instruction wrote anything. -/

namespace Sys2Proof.Machine

/-- A flag as the byte VF receives: 1 or 0. That 0 is written where the condition fails is DESIGN CHOICE of the spec,
unsafe (41 R121, log 13). -/
def flagByte (b : Bool) : Byte := if b then 1#8 else 0#8

/-- The exact sum of two bytes, 0..510 (41 R129). -/
def sum9 (a b : Byte) : Nat := a.toNat + b.toNat

/-- 8xy4: 1 when the sum exceeds 255 (41 R129). -/
def carryFlag (a b : Byte) : Byte := flagByte (decide (255 < sum9 a b))

/-- 8xy5 and 8xy7: 1 when the first operand is strictly greater (41 R130, R132). -/
def greaterFlag (a b : Byte) : Byte := flagByte (decide (b.toNat < a.toNat))

/-- 8xy6: bit 0 before the shift (41 R131). -/
def lowBitFlag (a : Byte) : Byte := flagByte (a.getLsbD 0)

/-- 8xyE: bit 7 before the shift (41 R133). -/
def highBitFlag (a : Byte) : Byte := flagByte (a.getLsbD 7)

/-- Fx1E: 1 when the new I exceeds 0xFFF (42 R151; DESIGN CHOICE of the spec, unsafe, log 16). -/
def indexFlag (i : Word) : Byte := flagByte (decide (0x0FFF < i.toNat))

/-- Dxyn: 1 when the draw turned a lit cell off (43 R172). -/
def collisionFlag (hit : Bool) : Byte := flagByte hit

end Sys2Proof.Machine
end

