-- ==== Sys2Proof/Machine/Operands.lean ====
section
/-! DEFINITION. The operand forms of the core (spec/30_encoding.md R73; 42_index_memory.md R154) and the shapes several
instructions share: a register result, a register result with a flag, a skip, a key index. -/

namespace Sys2Proof.Machine

/-- The literal `nnn` as a 16-bit value, `zext_16(nnn)` (30 R73). -/
def zextAddr (nnn : Addr12) : Word := nnn.zeroExtend 16

/-- A register value widened to 16 bits, `zext_16(V[x])` (30 R73). -/
def zextByte (b : Byte) : Word := b.zeroExtend 16

/-- The base of an index-relative access: I as a natural number; byte `k` is at `I + k`, not truncated (42 R154). -/
abbrev State.base (s : State) : Nat := s.i.toNat

/-- The key a register names, where its value is a key index 0..15 (44 R185). -/
def keyIndex (b : Byte) : Option (Fin 16) := if h : b.toNat < 16 then some ⟨b.toNat, h⟩ else none

/-- `KEYS[k]` (10 R35). -/
def State.keyDown (s : State) (k : Fin 16) : Bool := s.keys[k]

/-- The least key that is down, if any: keys are scanned in index order 0..15 (44 R187). -/
def lowestKey (keys : Keys) : Option (Fin 16) := (List.finRange 16).find? (fun k => keys[k])

/-- An instruction whose only effect is `V[x] <- b`, the fetch advance apart. -/
def writeReg (x : Nibble) (b : Byte) (s : State) : State := s.advance.setV x b

/-- An instruction that writes its result to `V[x]` and then its flag to VF: with `x` = 15 the flag stands (41 R122;
DESIGN CHOICE of the spec, unsafe, log 14). -/
def writeRegFlag (x : Nibble) (b flag : Byte) (s : State) : State := (s.advance.setV x b).setVF flag

/-- A skip: PC ← npc + 2 when the condition holds, else npc (40 R109). -/
def skipWhen (taken : Bool) (s : State) : State := s.advance.skipIf taken

/-- A skip on a key: KeyIndexOutOfRange where the register holds no key index (44 R185, R186; DESIGN CHOICE of the spec,
safe, log 18), else a skip when the key's level is the one wanted. -/
def skipOnKey (x : Nibble) (down : Bool) (s : State) : State :=
  match keyIndex (s.getV x) with
  | none => s.raise (.keyIndexOutOfRange (s.getV x))
  | some k => skipWhen (s.keyDown k == down) s

end Sys2Proof.Machine
end

