-- ==== Sys2Proof/Machine/Alu.lean ====
section
/-! DEFINITION. Register loads, arithmetic, logic and random: 6xnn, 7xnn, 8xy0 to 8xyE, Cxnn (spec/41_alu.md). The
destination of class 8 is V[x], its second operand V[y] (41 R135; PRESUMED, unsafe, log 10). -/

namespace Sys2Proof.Machine

/-- LD Vx, nn, 6xnn (41 R123). -/
def execLdImm (x : Nibble) (nn : Byte) (s : State) : Host.Outcome State Fault Refusal := .next (writeReg x nn s)

/-- ADD Vx, nn, 7xnn: modulo 256, no flag (41 R124). -/
def execAddImm (x : Nibble) (nn : Byte) (s : State) : Host.Outcome State Fault Refusal :=
  .next (writeReg x (s.getV x + nn) s)

/-- LD Vx, Vy, 8xy0 (41 R125). -/
def execLdReg (x y : Nibble) (s : State) : Host.Outcome State Fault Refusal := .next (writeReg x (s.getV y) s)

/-- OR Vx, Vy, 8xy1: VF untouched (41 R126). -/
def execOrReg (x y : Nibble) (s : State) : Host.Outcome State Fault Refusal :=
  .next (writeReg x (s.getV x ||| s.getV y) s)

/-- AND Vx, Vy, 8xy2: VF untouched (41 R127). -/
def execAndReg (x y : Nibble) (s : State) : Host.Outcome State Fault Refusal :=
  .next (writeReg x (s.getV x &&& s.getV y) s)

/-- XOR Vx, Vy, 8xy3: VF untouched (41 R128). -/
def execXorReg (x y : Nibble) (s : State) : Host.Outcome State Fault Refusal :=
  .next (writeReg x (s.getV x ^^^ s.getV y) s)

/-- ADD Vx, Vy, 8xy4: the exact sum narrowed to 8 bits, VF its bit 8 (41 R129). -/
def execAddReg (x y : Nibble) (s : State) : Host.Outcome State Fault Refusal :=
  .next (writeRegFlag x (BitVec.ofNat 8 (sum9 (s.getV x) (s.getV y))) (carryFlag (s.getV x) (s.getV y)) s)

/-- SUB Vx, Vy, 8xy5: V[x] − V[y], VF strictly greater (41 R130). -/
def execSubReg (x y : Nibble) (s : State) : Host.Outcome State Fault Refusal :=
  .next (writeRegFlag x (s.getV x - s.getV y) (greaterFlag (s.getV x) (s.getV y)) s)

/-- SHR Vx, 8xy6: V[x] shifted in place, the field y ignored (41 R131; DESIGN CHOICE of the spec, unsafe, log 12). -/
def execShr (x _y : Nibble) (s : State) : Host.Outcome State Fault Refusal :=
  .next (writeRegFlag x (s.getV x >>> 1) (lowBitFlag (s.getV x)) s)

/-- SUBN Vx, Vy, 8xy7: V[y] − V[x], VF strictly greater (41 R132). -/
def execSubnReg (x y : Nibble) (s : State) : Host.Outcome State Fault Refusal :=
  .next (writeRegFlag x (s.getV y - s.getV x) (greaterFlag (s.getV y) (s.getV x)) s)

/-- SHL Vx, 8xyE: V[x] shifted in place, the field y ignored (41 R133; DESIGN CHOICE of the spec, unsafe, log 12). -/
def execShl (x _y : Nibble) (s : State) : Host.Outcome State Fault Refusal :=
  .next (writeRegFlag x (s.getV x <<< 1) (highBitFlag (s.getV x)) s)

/-- RND Vx, nn, Cxnn: the STEP's random byte, any byte, and nn (41 R134, log 5). -/
def execRnd (x : Nibble) (nn : Byte) (s : State) : Host.Outcome State Fault Refusal :=
  .next (writeReg x (s.rnd &&& nn) s)

end Sys2Proof.Machine
end

