-- ==== Sys2Proof/Machine/Control.lean ====
section
/-! DEFINITION. Control transfer: RET, JP, CALL, JP V0, SE, SNE (spec/40_control_transfer.md). A meaning is given the
state before the step, whose PC addresses the instruction; `s.advance` is the state after the fetch advance (30 R70). -/

namespace Sys2Proof.Machine

/-- RET, 00EE (40 R100). -/
def execRet (s : State) : Host.Outcome State Fault Refusal :=
  .next (match s.pop with
    | none => s.raise .stackUnderflow
    | some (target, t) => t.jump target)

/-- JP nnn, 1nnn (40 R101). -/
def execJp (nnn : Addr12) (s : State) : Host.Outcome State Fault Refusal := .next (s.advance.jump (zextAddr nnn))

/-- CALL nnn, 2nnn: the return address is `npc` (40 R102). -/
def execCall (nnn : Addr12) (s : State) : Host.Outcome State Fault Refusal :=
  .next (match s.push s.advance.pc with
    | none => s.raise .stackOverflow
    | some t => t.jump (zextAddr nnn))

/-- JP V0, nnn, Bnnn (40 R103). -/
def execJpV0 (nnn : Addr12) (s : State) : Host.Outcome State Fault Refusal :=
  .next (s.advance.jump (zextByte (s.getV 0#4) + zextAddr nnn))

/-- SE Vx, nn, 3xnn (40 R105). -/
def execSeImm (x : Nibble) (nn : Byte) (s : State) : Host.Outcome State Fault Refusal :=
  .next (skipWhen (s.getV x == nn) s)

/-- SNE Vx, nn, 4xnn (40 R106). -/
def execSneImm (x : Nibble) (nn : Byte) (s : State) : Host.Outcome State Fault Refusal :=
  .next (skipWhen (s.getV x != nn) s)

/-- SE Vx, Vy, 5xy0 (40 R107). -/
def execSeReg (x y : Nibble) (s : State) : Host.Outcome State Fault Refusal :=
  .next (skipWhen (s.getV x == s.getV y) s)

/-- SNE Vx, Vy, 9xy0 (40 R108). -/
def execSneReg (x y : Nibble) (s : State) : Host.Outcome State Fault Refusal :=
  .next (skipWhen (s.getV x != s.getV y) s)

end Sys2Proof.Machine
end

