-- ==== Sys2Proof/Machine/Draw.lean ====
section
/-! DEFINITION. Display: 00E0 and Dxyn (spec/43_display.md). -/

namespace Sys2Proof.Machine

/-- CLS, 00E0: every cell 0, and DIRTY set even on a blank display (43 R171, 90 C2). -/
def execCls (s : State) : Host.Outcome State Fault Refusal :=
  .next { s.advance with disp := Display.blank, dirty := true }

/-- What a draw changes while it runs: the cells, whether a lit cell was turned off, DIRTY (43 R172). -/
structure Canvas where
  disp : Display
  hit : Bool
  dirty : Bool
  deriving DecidableEq, Repr

/-- One set sprite bit at a position: inside the grid the cell toggles, a lit one is a collision, and DIRTY is set;
outside it is clipped (43 R172). -/
def plot (row col : Nat) (c : Canvas) : Canvas :=
  if row < 32 ∧ col < 64 then
    { disp := c.disp.setCell row col (!c.disp.cell row col), hit := c.hit || c.disp.cell row col, dirty := true }
  else c

/-- One sprite row: bit `7 − k` of the byte at column `x0 + k`, most significant bit first (43 R170, R172). -/
def drawRow (b : Byte) (x0 row : Nat) (c : Canvas) : Canvas :=
  (List.range 8).foldl (fun c k => if b.getLsbD (7 - k) then plot row (x0 + k) c else c) c

/-- The sprite's rows from display row `y0` downward (43 R172). -/
def drawRows : List Byte → Nat → Nat → Canvas → Canvas
  | [], _, _, c => c
  | b :: bs, x0, y0, c => drawRows bs x0 (y0 + 1) (drawRow b x0 y0 c)

/-- The sprite's column, `V[x] mod 64`, read before VF is written (43 R172; the orientation, log 34). -/
def State.originCol (s : State) (x : Nibble) : Nat := (s.getV x).toNat % 64

/-- The sprite's row, `V[y] mod 32`, read before VF is written (43 R172). -/
def State.originRow (s : State) (y : Nibble) : Nat := (s.getV y).toNat % 32

/-- The canvas after drawing the `n` sprite bytes at I; the collision flag starts at 0 (43 R172). -/
def State.drawn (s : State) (x y n : Nibble) : Canvas :=
  drawRows (s.mem.readBytes s.base n.toNat) (s.originCol x) (s.originRow y) ⟨s.disp, false, s.dirty⟩

/-- DRW Vx, Vy, n, Dxyn: all `n` rows are range-checked, clipped or not (43 R172; DESIGN CHOICE of the spec, safe,
log 22); VF is written on every execution, `n` = 0 included (90 C1). -/
def execDrw (x y n : Nibble) (s : State) : Host.Outcome State Fault Refusal :=
  .next (s.checked s.base n.toNat
    ({ s.advance with disp := (s.drawn x y n).disp, dirty := (s.drawn x y n).dirty }.setVF
      (collisionFlag (s.drawn x y n).hit)))

end Sys2Proof.Machine
end

