-- ==== Sys2Proof/Machine/Index.lean ====
section
/-! DEFINITION. Index register and memory: Annn, Fx1E, Fx29, Fx33, Fx55, Fx65 (spec/42_index_memory.md). None of Fx33,
Fx55, Fx65 changes I (42 R154; DESIGN CHOICE of the spec, unsafe, log 15). -/

namespace Sys2Proof.Machine

/-- LD I, nnn, Annn (42 R150). -/
def execLdI (nnn : Addr12) (s : State) : Host.Outcome State Fault Refusal :=
  .next { s.advance with i := zextAddr nnn }

/-- ADD I, Vx, Fx1E: a 16-bit wrapping add, then VF from the new I (42 R151; DESIGN CHOICE of the spec, unsafe, log 16). -/
def execAddI (x : Nibble) (s : State) : Host.Outcome State Fault Refusal :=
  .next ({ s.advance with i := s.i + zextByte (s.getV x) }.setVF (indexFlag (s.i + zextByte (s.getV x))))

/-- LD F, Vx, Fx29: the formula applied to all 256 values (42 R152; DESIGN CHOICE of the spec, unsafe, log 17). -/
def execLdF (x : Nibble) (s : State) : Host.Outcome State Fault Refusal :=
  .next { s.advance with i := 0x0050#16 + 5#16 * zextByte (s.getV x) }

/-- The decimal digits of a byte: hundreds, tens, ones (42 R153; PRESUMED, unsafe: the order, log 11). -/
def bcdDigits (a : Byte) : List Byte :=
  [BitVec.ofNat 8 (a.toNat / 100), BitVec.ofNat 8 (a.toNat / 10 % 10), BitVec.ofNat 8 (a.toNat % 10)]

/-- LD B, Vx, Fx33: three bytes at I (42 R153). -/
def execLdB (x : Nibble) (s : State) : Host.Outcome State Fault Refusal :=
  .next (s.checked s.base 3 { s.advance with mem := s.mem.writeBytes s.base (bcdDigits (s.getV x)) })

/-- LD [I], Vx, Fx55: V0..Vx stored from I upward (42 R155). -/
def execLdMemVx (x : Nibble) (s : State) : Host.Outcome State Fault Refusal :=
  .next (s.checked s.base (x.toNat + 1) { s.advance with mem := s.mem.writeBytes s.base (getVs s (x.toNat + 1)) })

/-- LD Vx, [I], Fx65: V0..Vx loaded from I upward (42 R156). -/
def execLdVxMem (x : Nibble) (s : State) : Host.Outcome State Fault Refusal :=
  .next (s.checked s.base (x.toNat + 1) (setVs 0 (s.mem.readBytes s.base (x.toNat + 1)) s.advance))

end Sys2Proof.Machine
end

