-- ==== Sys2Proof/Machine/KeysTimers.lean ====
section
/-! DEFINITION. Keypad and timer instructions: Ex9E, ExA1, Fx0A, Fx07, Fx15, Fx18 (spec/44_keypad_timers.md). -/

namespace Sys2Proof.Machine

/-- SKP Vx, Ex9E: skip if the key is down (44 R185). -/
def execSkp (x : Nibble) (s : State) : Host.Outcome State Fault Refusal := .next (skipOnKey x true s)

/-- SKNP Vx, ExA1: skip if the key is not down (44 R186). -/
def execSknp (x : Nibble) (s : State) : Host.Outcome State Fault Refusal := .next (skipOnKey x false s)

/-- LD Vx, K, Fx0A: the lowest key down, else PC back at this instruction and nothing else changes (44 R187). -/
def execLdVxK (x : Nibble) (s : State) : Host.Outcome State Fault Refusal :=
  .next (match lowestKey s.keys with
    | some k => writeReg x (BitVec.ofNat 8 k.val) s
    | none => s.advance.jump (s.advance.pc - 2#16))

/-- LD Vx, DT, Fx07 (44 R188). -/
def execLdVxDt (x : Nibble) (s : State) : Host.Outcome State Fault Refusal := .next (writeReg x s.dt s)

/-- LD DT, Vx, Fx15 (44 R189). -/
def execLdDtVx (x : Nibble) (s : State) : Host.Outcome State Fault Refusal :=
  .next { s.advance with dt := s.getV x }

/-- LD ST, Vx, Fx18 (44 R190). -/
def execLdStVx (x : Nibble) (s : State) : Host.Outcome State Fault Refusal :=
  .next { s.advance with st := s.getV x }

end Sys2Proof.Machine
end

