-- ==== Sys2Proof/Machine/HostOps.lean ====
section
/-! DEFINITION. The host operations other than STEP: RESET, TICK, CONSUME_FRAME, STOP, and the outputs the host may observe
(spec/60_exceptions.md R214, R219, R223, R224; 70_reset_and_hazards.md R240; 10_state.md R40). -/

namespace Sys2Proof

/-- The state a failed RESET leaves, HALT apart: unspecified, so any state. A free value: it has no body, and nothing
may be assumed of it (60 R201, 70 R243; log 4). -/
opaque Config.stateAfterFailedReset : Nat → Machine.State

end Sys2Proof

namespace Sys2Proof.Machine

/-- TICK: both timers down by one, each floored at 0; HALT is not consulted (60 R214, R216; log 23). -/
def State.tick (s : State) : State :=
  { s with
    dt := if 0 < s.dt.toNat then s.dt - 1#8 else s.dt
    st := if 0 < s.st.toNat then s.st - 1#8 else s.st }

/-- CONSUME_FRAME: the host gets the cells, DIRTY is cleared (60 R219). -/
def State.consumeFrame (s : State) : Display × State := (s.disp, { s with dirty := false })

/-- STOP: HALT ← HALTED(HostStop) if it was RUNNING, else nothing (60 R224; log 31). -/
def State.stop (s : State) : State :=
  match s.halt with
  | .running => { s with halt := .halted .hostStop }
  | .halted _ => s

/-- Memory after RESET of an image: the font table, zeros, and byte `k` of the image at 0x200 + k (70 R240, R241). -/
def loadImage (image : List Byte) : Memory := Memory.writeBytes [] Config.progBase image

/-- RESET: too large an image leaves HALTED(ProgramTooLarge) and everything else unspecified, before any byte is
written; else every piece of state takes its reset value and the image is loaded (70 R240, 60 R201). The host's schedule
and the count of its operations are the host's, not the core's: no RESET clears them. -/
def State.resetWith (s : State) (image : List Byte) : State :=
  if Config.progMax < image.length then
    { Config.stateAfterFailedReset s.opNo with
      halt := .halted (.fatal (.programTooLarge image.length)), host := s.host, opNo := s.opNo, diag := none }
  else
    { State.reset with mem := loadImage image, host := s.host, opNo := s.opNo }

/-- The sound signal `ST ≠ 0` (10 R31, 60 R220). -/
def State.sound (s : State) : Bool := s.st != 0#8

/-- What the host may observe between operations (10 R40). -/
structure Outputs where
  cells : Display
  dirty : Bool
  sound : Bool
  halt : Halt
  diag : Option Diagnostic
  deriving DecidableEq, Repr

/-- The outputs of a state (10 R40). -/
def State.outputs (s : State) : Outputs := ⟨s.disp, s.dirty, s.sound, s.halt, s.diag⟩

end Sys2Proof.Machine
end

