-- ==== Sys2Proof/Machine/Cycle.lean ====
section
/-! DEFINITION. The STEP operation (spec/30_encoding.md R70, R78; 60_exceptions.md R207, R208) and the performing of the
host's next operation (R223). -/

namespace Sys2Proof.Machine

/-- What the fetch gives: the word, or the lowest address out of range (20 R52). -/
inductive Fetched where
  | word (w : Word)
  | outOfRange (addr : Nat)
  deriving DecidableEq, Repr

/-- The fetch: two bytes at PC, PC + 1, big-endian, each range-checked (20 R52). -/
def State.fetch (s : State) : Fetched :=
  match firstOutOfRange s.pc.toNat 2 with
  | some a => .outOfRange a
  | none => .word (wordOf (s.mem.read s.pc.toNat) (s.mem.read (s.pc.toNat + 1)))

/-- An unmapped word: a 2-byte no-operation with the diagnostic UnknownInstruction (30 R78). -/
def unknownStep (w : Word) (s : State) : State := s.advance.endStep (some (.unknownInstruction w))

/-- The end of a STEP whose instruction was executed without a diagnostic (30 R70). -/
def finishStep : Host.Outcome State Fault Refusal → Host.Outcome State Fault Refusal
  | .next t => .next (t.endStep none)
  | .fault f => .fault f
  | .refused r => .refused r

/-- Fetch, decode, execute on a running machine (30 R70; checks in the order of 60 R208). -/
def runStep (s : State) : Host.Outcome State Fault Refusal :=
  match s.fetch with
  | .outOfRange a => .next ((s.raise (.addressOutOfRange a)).endStep none)
  | .word w =>
    match decode w with
    | .unknown w' => .next (unknownStep w' s)
    | .instr i => finishStep (exec i s)

/-- STEP: a halted machine executes nothing (60 R207); one whose RESET failed must not be stepped (70 R243, log 3). -/
def stepOp (s : State) : Host.Outcome State Fault Refusal :=
  match s.halt with
  | .running => runStep s
  | .halted (.fatal (.programTooLarge _)) => .refused .machineNotConstructed
  | .halted _ => .next (s.endStep none)

/-- The host's next operation, performed; with an empty schedule it is a STEP with free inputs (00 R12, log 7). -/
def hostStep (s : State) : Host.Outcome State Fault Refusal :=
  match s.host with
  | .reset image :: _ => .next (s.resetWith image).endOp
  | .tick :: _ => .next s.tick.endOp
  | .consumeFrame :: _ => .next s.consumeFrame.2.endOp
  | .stop :: _ => .next s.stop.endOp
  | .step _ _ :: _ => stepOp s
  | [] => stepOp s

/-- Whether a host operation is a STEP. -/
def HostOp.isStep : HostOp → Bool
  | .step _ _ => true
  | _ => false

/-- The state whose next step executes this word: the word stored at PC (at 0x200 where PC admits no fetch), the machine
running, and nothing but a STEP next in the schedule. It stands for the RESET that loads a program (log 27). -/
def placeWord (s : State) (w : Word) : State :=
  let pc := if s.pc.toNat ≤ 0xFFE then s.pc else 0x0200#16
  { s with
    pc := pc
    mem := s.mem.writeBytes pc.toNat (wordBytes w)
    halt := .running
    host := s.host.dropWhile (fun op => !op.isStep) }

end Sys2Proof.Machine
end

