-- ==== Sys2Proof/Machine/Step.lean ====
section
/-! DEFINITION. One step of the machine: the host's next operation (spec/00_scope.md R12). -/

namespace Sys2Proof.Machine

/-- One step: the next host operation of the schedule, a STEP where none is pending. -/
def step (s : State) : Host.Outcome State Fault Refusal := hostStep s

/-- `s` with the instruction word whose low `nbits` bits are those of `w` stored where `step` fetches next. -/
def State.withFetchWord (s : State) (nbits w : Nat) : State := placeWord s (BitVec.ofNat 16 (w % 2 ^ nbits))

end Sys2Proof.Machine
end

