-- ==== Sys2Proof/Safety.lean ====
section
/-! DEFINITION. What counts as a safe state, the machine's invariant, and what it means that a step leaves a piece of
state alone, in the terms the claims use. -/

namespace Sys2Proof

/-- The seven instructions that write VF as a flag (10 R22). -/
def Instr.writesFlag : Instr → Bool
  | .addReg _ _ | .subReg _ _ | .shr _ _ | .subnReg _ _ | .shl _ _ | .drw _ _ _ | .addI _ => true
  | _ => false

/-- A register is among the ordinary destinations of an instruction (10 R21). -/
def Instr.hasDest : Instr → Nibble → Bool
  | .ldImm x _, r | .addImm x _, r | .ldReg x _, r | .orReg x _, r | .andReg x _, r | .xorReg x _, r
  | .addReg x _, r | .subReg x _, r | .shr x _, r | .subnReg x _, r | .shl x _, r | .rnd x _, r
  | .ldVxDt x, r | .ldVxK x, r => r == x
  | .ldVxMem x, r => decide (r.toNat ≤ x.toNat)
  | _, _ => false

/-- The instructions that look at the inputs of a STEP: KEYS (10 R35) or the random byte (10 R36). -/
def Instr.readsInput : Instr → Bool
  | .skp _ | .sknp _ | .ldVxK _ | .rnd _ _ => true
  | _ => false

end Sys2Proof

namespace Sys2Proof.Machine

/-- A halted state whose cause is a fatal condition counts as a fault, never as a successful end (60 R207); HostStop is
no fault of the program (60 R224). -/
def State.verdict (s : State) : Option Fault :=
  match s.halt with
  | .halted (.fatal c) => some (.fatal c)
  | _ => none

/-- The machine exists: its last RESET did not fail (60 R201, 70 R243). -/
def State.constructed (s : State) : Bool :=
  match s.halt with
  | .halted (.fatal (.programTooLarge _)) => false
  | _ => true

/-- The bounds 10 R25 gives: memory in canonical form, PC at most 0x10FE, every return address at most 0x1000. -/
structure State.Bounded (s : State) : Prop where
  mem : s.mem.wf = true
  pc : s.pc.toNat ≤ 0x10FE
  stack : ∀ k : Fin 16, s.stack[k].toNat ≤ 0x1000

/-- The invariant: a machine that exists is within the bounds. Of one that does not, nothing is assumed (70 R243). -/
def State.Inv (s : State) : Prop := s.constructed = true → s.Bounded

/-- The pieces of state, as frames name them. -/
inductive Piece where
  | reg (x : Nibble)
  | index
  | pc
  | slot (k : Fin 16)
  | sp
  | delay
  | sound
  | cell (r c : Nat)
  | dirty
  | halt
  | byte (a : Nat)
  | diag
  | schedule
  deriving DecidableEq, Repr

/-- Two states agree on a piece of state. The schedule is the model's own pair of `host` and `opNo`. -/
def State.agree (s t : State) : Piece → Prop
  | .reg x => t.getV x = s.getV x
  | .index => t.i = s.i
  | .pc => t.pc = s.pc
  | .slot k => t.stack[k] = s.stack[k]
  | .sp => t.sp = s.sp
  | .delay => t.dt = s.dt
  | .sound => t.st = s.st
  | .cell r c => t.disp.cell r c = s.disp.cell r c
  | .dirty => t.dirty = s.dirty
  | .halt => t.halt = s.halt
  | .byte a => t.mem.read a = s.mem.read a
  | .diag => t.diag = s.diag
  | .schedule => t.host = s.host ∧ t.opNo = s.opNo

/-- From `s` to `t` every piece of state outside `changed` is unchanged. -/
def Frame (changed : Piece → Prop) (s t : State) : Prop := ∀ p, ¬ changed p → s.agree t p

/-- From `s` to `t` every piece of state not in the list is unchanged. -/
def FrameBut (ps : List Piece) (s t : State) : Prop := Frame (fun p => p ∈ ps) s t

/-- The host's next operation is a STEP: the schedule is empty, or a STEP stands first (log 7). -/
def State.stepsNext (s : State) : Bool :=
  match s.host with
  | [] => true
  | op :: _ => op.isStep

/-- A sprite bit is drawn on a cell: the cell is in row `y0 + j`, column `x0 + k` for a row `j` of the sprite and a
`k < 8`, and bit `7 − k` of byte `j` is set (43 R170). -/
def spriteCovers (rows : List Byte) (x0 y0 r c : Nat) : Bool :=
  if y0 ≤ r ∧ x0 ≤ c ∧ c < x0 + 8 then ((rows[r - y0]?).getD 0#8).getLsbD (7 - (c - x0)) else false

end Sys2Proof.Machine
end

