-- ==== Sys2Proof/WellFormed.lean ====
section
/-! DEFINITION. The opcode map as data (spec/30_encoding.md R74), what a well-formed row and a well-formed map are, and
which words and instructions are well formed (R75, R77). -/

namespace Sys2Proof

/-- A row of the opcode map: a word `w` selects it when `w &&& mask = pattern` (30 R74, columns mask and match). -/
structure Row where
  mnemonic : String
  mask : Word
  pattern : Word
  deriving DecidableEq, Repr

/-- Classes 0 to 7 of the opcode map, rows 1 to 9 (30 R74). -/
def rowsLow : List Row :=
  [⟨"CLS", 0xFFFF, 0x00E0⟩, ⟨"RET", 0xFFFF, 0x00EE⟩, ⟨"JP_nnn", 0xF000, 0x1000⟩, ⟨"CALL_nnn", 0xF000, 0x2000⟩,
   ⟨"SE_Vx__nn", 0xF000, 0x3000⟩, ⟨"SNE_Vx__nn", 0xF000, 0x4000⟩, ⟨"SE_Vx__Vy", 0xF00F, 0x5000⟩,
   ⟨"LD_Vx__nn", 0xF000, 0x6000⟩, ⟨"ADD_Vx__nn", 0xF000, 0x7000⟩]

/-- Class 8 of the opcode map, rows 10 to 18 (30 R74). PRESUMED, unsafe: the subcodes 5, 6, 7 and E, log 9. -/
def rowsAlu : List Row :=
  [⟨"LD_Vx__Vy", 0xF00F, 0x8000⟩, ⟨"OR_Vx__Vy", 0xF00F, 0x8001⟩, ⟨"AND_Vx__Vy", 0xF00F, 0x8002⟩,
   ⟨"XOR_Vx__Vy", 0xF00F, 0x8003⟩, ⟨"ADD_Vx__Vy", 0xF00F, 0x8004⟩, ⟨"SUB_Vx__Vy", 0xF00F, 0x8005⟩,
   ⟨"SHR_Vx", 0xF00F, 0x8006⟩, ⟨"SUBN_Vx__Vy", 0xF00F, 0x8007⟩, ⟨"SHL_Vx", 0xF00F, 0x800E⟩]

/-- Classes 9 to D of the opcode map, rows 19 to 23 (30 R74). -/
def rowsHigh : List Row :=
  [⟨"SNE_Vx__Vy", 0xF00F, 0x9000⟩, ⟨"LD_I__nnn", 0xF000, 0xA000⟩, ⟨"JP_V0__nnn", 0xF000, 0xB000⟩,
   ⟨"RND_Vx__nn", 0xF000, 0xC000⟩, ⟨"DRW_Vx__Vy__n", 0xF000, 0xD000⟩]

/-- Classes E and F of the opcode map, rows 24 to 34 (30 R74). -/
def rowsMisc : List Row :=
  [⟨"SKP_Vx", 0xF0FF, 0xE09E⟩, ⟨"SKNP_Vx", 0xF0FF, 0xE0A1⟩, ⟨"LD_Vx__DT", 0xF0FF, 0xF007⟩,
   ⟨"LD_Vx__K", 0xF0FF, 0xF00A⟩, ⟨"LD_DT__Vx", 0xF0FF, 0xF015⟩, ⟨"LD_ST__Vx", 0xF0FF, 0xF018⟩,
   ⟨"ADD_I__Vx", 0xF0FF, 0xF01E⟩, ⟨"LD_F__Vx", 0xF0FF, 0xF029⟩, ⟨"LD_B__Vx", 0xF0FF, 0xF033⟩,
   ⟨"LD__I___Vx", 0xF0FF, 0xF055⟩, ⟨"LD_Vx___I", 0xF0FF, 0xF065⟩]

/-- The complete opcode map: 34 rows (30 R74). -/
def opcodeMap : List Row := rowsLow ++ rowsAlu ++ rowsHigh ++ rowsMisc

/-- Whether a word selects a row (30 R74). -/
def Row.selects (r : Row) (w : Word) : Bool := w &&& r.mask == r.pattern

/-- A row is well formed when its pattern has no bit outside its mask (else no word could select it). -/
def Row.wf (r : Row) : Bool := r.pattern &&& r.mask == r.pattern

/-- Two rows are disjoint when their patterns differ in a bit both masks fix (30 R75: no word matches two rows). -/
def Row.disjoint (r q : Row) : Bool := r.pattern &&& (r.mask &&& q.mask) != q.pattern &&& (r.mask &&& q.mask)

/-- A list of rows is well formed when every row is, and any two are disjoint (30 R75). -/
def rowsWf : List Row → Bool
  | [] => true
  | r :: rest => r.wf && rest.all (fun q => r.disjoint q) && rowsWf rest

/-- A word is well formed, that is mapped, when some row of the opcode map selects it; every other word is unmapped (30 R77). -/
def mapped (w : Word) : Bool := opcodeMap.any (fun r => r.selects w)

/-- An instruction and a word agree on the opcode map: the word is in the row of the instruction's mnemonic. Every
`Instr` is well formed by its field types (30 R71, R73), so this is the check left for a pair. -/
def Instr.inRowOf (i : Instr) (w : Word) : Bool :=
  opcodeMap.any (fun r => r.mnemonic == i.mnemonic && r.selects w)

end Sys2Proof
end

