-- ==== Sys2Proof/Certificates/Slice0/Obligations.lean ====
section
/-! DEFINITION. The statements for the provers, from the numbered rules of spec/. `log n` is notes/assumptions/n.md. -/

open Sys2Proof Sys2Proof.Machine

/-! ### Encoding and decoding (30_encoding.md) -/

/-- Every instruction, with every operand at every value its field admits, is read back from its own word and from its
own two bytes, whatever bytes follow (30 R71, R74, R75; the subcodes of SUB, SHR, SUBN, SHL are PRESUMED, log 9). -/
def Obligations.DecodeEncodeRoundTrip : Prop :=
  ∀ i : Instr, decode (encode i) = .instr i ∧ ∀ rest, decodeBytes (encodeBytes i ++ rest) = .ok (.instr i, rest)

/-- A word that decodes to an instruction is that instruction's word: each mapped word has one meaning, and no bit of it
is dropped (30 R74, R79; the subcodes of SUB, SHR, SUBN, SHL are PRESUMED, log 9, literal matching the spec's choice,
log 19). -/
def Obligations.EncodeDecodeRoundTrip : Prop :=
  ∀ (w : Word) (i : Instr), decode w = .instr i → encode i = w

/-- No word matches two rows of the opcode map (30 R75; the subcodes of SUB, SHR, SUBN, SHL are PRESUMED, log 9). -/
def Obligations.OpcodeRowsPairwiseDisjoint : Prop :=
  ∀ (w : Word) (r q : Row), r ∈ opcodeMap → q ∈ opcodeMap → r.selects w = true → q.selects w = true → r = q

/-- The unmapped words are those of 30 R77, class by class: they decode to UNKNOWN with the word itself, they are the
words no row of the map selects, and every other word decodes to an instruction. Rests on the subcodes 5, 6, 7, E of
class 8 (PRESUMED, log 9) and on matching literally (DESIGN CHOICE, log 19). -/
def Obligations.UnmappedWordsAreUnknown : Prop :=
  ∀ w : Word,
    (decode w = .unknown w ↔ mapped w = false) ∧
    (mapped w = true → ∃ i, decode w = .instr i) ∧
    (mapped w = false ↔
      (classOf w = 0x0#4 ∧ w ≠ 0x00E0#16 ∧ w ≠ 0x00EE#16) ∨
      (classOf w = 0x5#4 ∧ fieldN w ≠ 0#4) ∨
      (classOf w = 0x8#4 ∧ (fieldN w).toNat ∈ [0x8, 0x9, 0xA, 0xB, 0xC, 0xD, 0xF]) ∨
      (classOf w = 0x9#4 ∧ fieldN w ≠ 0#4) ∨
      (classOf w = 0xE#4 ∧ (fieldNN w).toNat ∉ [0x9E, 0xA1]) ∨
      (classOf w = 0xF#4 ∧ (fieldNN w).toNat ∉ [0x07, 0x0A, 0x15, 0x18, 0x1E, 0x29, 0x33, 0x55, 0x65]))

/-- Words written out in the spec decode to the instructions it names: 6A05, 7A02 (95 E11), 00EE, 220A, FA33 (95 P2),
D125, 8EF0 (95 P3), F20A (95 P4), 0000 (30 R78). -/
def Obligations.SpecWordsDecode : Prop :=
  decode 0x6A05 = .instr (.ldImm 0xA 0x05) ∧ decode 0x7A02 = .instr (.addImm 0xA 0x02) ∧
  decode 0x00EE = .instr .ret ∧ decode 0x220A = .instr (.call 0x20A) ∧ decode 0xFA33 = .instr (.ldB 0xA) ∧
  decode 0xD125 = .instr (.drw 1 2 5) ∧ decode 0x8EF0 = .instr (.ldReg 0xE 0xF) ∧
  decode 0xF20A = .instr (.ldVxK 2) ∧ decode 0x0000 = .unknown 0x0000

/-! ### The STEP operation (20_memory.md R52, 30_encoding.md R70, 60_exceptions.md R207 to R209) -/

/-- The fetch: two bytes at PC and PC + 1, the first the high byte, exactly when PC ≤ 0xFFE; else the lowest of the two
addresses at or above 4096 (20 R52, R53). The spec's choices: an odd PC is fetched like an even one (D25, log 21), the lowest
bad address is the one reported (D32, log 25). -/
def Obligations.FetchIsBigEndian : Prop :=
  ∀ s : State,
    (s.pc.toNat ≤ 0xFFE → s.fetch = .word (s.mem.read s.pc.toNat ++ s.mem.read (s.pc.toNat + 1))) ∧
    (s.pc.toNat = 0xFFF → s.fetch = .outOfRange 0x1000) ∧
    (0x1000 ≤ s.pc.toNat → s.fetch = .outOfRange s.pc.toNat)

/-- A step runs the decoded instruction: on a running machine whose next operation is a STEP, where the two bytes at PC
decode to `i`, step is exec of `i` at that state, after which the diagnostic output is none and the operation is taken
off the schedule (30 R70). -/
def Obligations.StepRunsDecodedInstruction : Prop :=
  ∀ (s : State) (i : Instr), s.halt = .running → s.stepsNext = true → s.pc.toNat ≤ 0xFFE →
    decodeBytes [s.mem.read s.pc.toNat, s.mem.read (s.pc.toNat + 1)] = .ok (.instr i, []) →
    step s = match exec i s with
      | .next t => .next { t with diag := none, host := t.host.tail, opNo := t.opNo + 1 }
      | .fault f => .fault f
      | .refused r => .refused r

/-- An unmapped word is a 2-byte no-operation that reports itself: PC + 2, the diagnostic with the word, nothing else
(30 R78; the form of the report is the model's and the spec's choice, log 20). -/
def Obligations.UnmappedWordIsNoOperation : Prop :=
  ∀ (s : State) (w : Word), s.halt = .running → s.stepsNext = true → s.fetch = .word w → decode w = .unknown w →
    ∃ t, step s = .next t ∧ t.pc = s.pc + 2#16 ∧ t.diag = some (.unknownInstruction w) ∧
      FrameBut [.pc, .diag, .schedule] s t

/-- A halted machine executes nothing: a STEP changes no piece of the machine and gives no diagnostic, for every cause but
a failed RESET (60 R207; the latch is the spec's choice, log 2, log 31). -/
def Obligations.HaltedStepChangesNothing : Prop :=
  ∀ (s : State) (c : HaltCause), s.halt = .halted c → (∀ n, c ≠ .fatal (.programTooLarge n)) → s.stepsNext = true →
    ∃ t, step s = .next t ∧ t.diag = none ∧ FrameBut [.diag, .schedule] s t

/-- A fetch above 0xFFE halts with AddressOutOfRange and the lowest bad address, and PC is kept (60 R202, R209; the latch,
what it keeps and the address it reports are the spec's choice, log 2, log 30, log 25). -/
def Obligations.FetchOutOfRangeHalts : Prop :=
  ∀ s : State, s.halt = .running → s.stepsNext = true → 0xFFE < s.pc.toNat →
    ∃ t, step s = .next t ∧ t.halt = .halted (.fatal (.addressOutOfRange (max s.pc.toNat 0x1000))) ∧
      t.diag = none ∧ FrameBut [.halt, .diag, .schedule] s t

/-- Precision: a STEP that halts a running machine has changed nothing but HALT (and the model's own bookkeeping), and the
cause is a fatal condition a STEP can raise (60 R200, R209; the spec's choice, log 30). -/
def Obligations.HaltingStepCommitsNothing : Prop :=
  ∀ s t : State, s.halt = .running → s.stepsNext = true → step s = .next t → t.halt ≠ .running →
    (∃ c, t.halt = .halted (.fatal c) ∧ ∀ n, c ≠ .programTooLarge n) ∧ FrameBut [.halt, .diag, .schedule] s t

/-- Placing an instruction's word makes the very next step run it, from any state with well-formed memory: the fetch word
of `withFetchWord` is the encoder's (log 27). -/
def Obligations.PlacedWordRunsNext : Prop :=
  ∀ (s : State) (i : Instr), s.mem.wf = true →
    step (s.withFetchWord 16 (encode i).toNat) =
      match exec i (s.withFetchWord 16 (encode i).toNat) with
      | .next t => .next { t with diag := none, host := t.host.tail, opNo := t.opNo + 1 }
      | .fault f => .fault f
      | .refused r => .refused r

/-- Every step answers a next state, but a STEP on a machine whose RESET failed, which is refused by name; nothing else is
refused, and no step ends in a fault (70 R243, log 2, log 3). -/
def Obligations.StepStopsOnlyAfterFailedReset : Prop :=
  ∀ s : State,
    if s.constructed = false ∧ s.stepsNext = true then step s = .refused .machineNotConstructed
    else ∃ t, step s = .next t

/-- The inputs of a STEP are those of the pending STEP operation, whatever they are; where none is pending they are the
free values of this operation's number (10 R35, R36; log 5, log 6). -/
def Obligations.StepInputsComeFromSchedule : Prop :=
  ∀ (s : State) (keys : Keys) (rnd : Byte) (rest : List HostOp),
    (s.host = .step keys rnd :: rest → s.keys = keys ∧ s.rnd = rnd) ∧
    (s.host = [] → s.keys = Config.freeKeys s.opNo ∧ s.rnd = Config.freeRnd s.opNo)

/-! ### Host operations (60_exceptions.md R214, R219, R224; 70_reset_and_hazards.md) -/

/-- TICK: each timer down by one, floored at 0 on its own, and nothing else, halted or not (60 R214; that a halted machine's
timers count down too is the spec's choice, R216, D27, log 23). -/
def Obligations.TickDecrementsTimers : Prop :=
  ∀ (s : State) (rest : List HostOp), s.host = .tick :: rest →
    ∃ t, step s = .next t ∧ t.dt.toNat = s.dt.toNat - 1 ∧ t.st.toNat = s.st.toNat - 1 ∧ t.host = rest ∧
      FrameBut [.delay, .sound, .schedule] s t

/-- `k` TICKs in a row take `k` off each timer, never below 0, from any state, halted or not: "exactly 0, never below"
(60 R214, 95 E9; that a halted machine's timers count down too is the spec's choice, R216, D27, log 23). -/
def Obligations.TicksCountDownToZero : Prop :=
  ∀ (k : Nat) (s : State), s.host = List.replicate k .tick →
    ∃ t, Host.Core.run Sys2Proof.core k s = .next t ∧ t.dt.toNat = s.dt.toNat - k ∧ t.st.toNat = s.st.toNat - k ∧
      FrameBut [.delay, .sound, .schedule] s t

/-- CONSUME_FRAME: the host receives the cells, DIRTY is cleared, and nothing else changes (60 R219). -/
def Obligations.ConsumeFrameClearsDirty : Prop :=
  ∀ (s : State) (rest : List HostOp), s.host = .consumeFrame :: rest →
    s.consumeFrame.1 = s.disp ∧
    ∃ t, step s = .next t ∧ t.dirty = false ∧ t.host = rest ∧ FrameBut [.dirty, .schedule] s t

/-- STOP: HALT becomes HALTED(HostStop) on a running machine, a latched cause is kept, nothing else changes (60 R224; the
latch is the spec's choice, log 31). -/
def Obligations.StopLatchesHostStop : Prop :=
  ∀ (s : State) (rest : List HostOp), s.host = .stop :: rest →
    ∃ t, step s = .next t ∧ t.host = rest ∧
      (s.halt = .running → t.halt = .halted .hostStop) ∧ (s.halt ≠ .running → t.halt = s.halt) ∧
      FrameBut [.halt, .schedule] s t

/-- Memory after a RESET of at most 3584 bytes: byte `k` of the image at 0x200 + k, the font table at 0x050, zero at every
other address (70 R241, 90 C3). FONT[5..79] is the spec's parameter, here `fontTable` (log 8): nothing is said of a glyph. -/
def Obligations.ResetLoadsImage : Prop :=
  ∀ (s : State) (image : List Byte) (rest : List HostOp), s.host = .reset image :: rest → image.length ≤ 3584 →
    ∃ t, step s = .next t ∧ t.host = rest ∧
      (∀ (k : Nat) (h : k < image.length), t.mem.read (0x200 + k) = image[k]) ∧
      (∀ j : Nat, j < 80 → some (t.mem.read (0x050 + j)) = fontTable[j]?) ∧
      (List.range 5).map (fun j => t.mem.read (0x050 + j)) = [0xF0#8, 0x90#8, 0x90#8, 0x90#8, 0xF0#8] ∧
      (∀ a : Nat, ¬ (0x050 ≤ a ∧ a ≤ 0x09F) → ¬ (0x200 ≤ a ∧ a < 0x200 + image.length) → t.mem.read a = 0#8)

/-- Registers after a RESET of at most 3584 bytes, from any state, halted or not: PC = 0x200, HALT = RUNNING, the stack
empty, every register, timer and cell 0, DIRTY clear (70 R240, R242; the zeros are the spec's decisions D2 to D6, log 1). -/
def Obligations.ResetClearsRegisters : Prop :=
  ∀ (s : State) (image : List Byte) (rest : List HostOp), s.host = .reset image :: rest → image.length ≤ 3584 →
    ∃ t, step s = .next t ∧ t.pc = 0x0200#16 ∧ t.halt = .running ∧ t.sp.val = 0 ∧ (∀ x, t.getV x = 0#8) ∧
      t.i = 0#16 ∧ t.dt = 0#8 ∧ t.st = 0#8 ∧ (∀ k : Fin 16, t.stack[k] = 0#16) ∧ (∀ r c, t.disp.cell r c = false) ∧
      t.dirty = false ∧ t.diag = none

/-- RESET of more than 3584 bytes: HALT = HALTED(ProgramTooLarge), the length with it; and a STEP on such a machine is
refused, whatever the rest of its state (60 R201, 70 R243; the spec's choice, log 3, log 4, the
length it carries log 25). -/
def Obligations.FailedResetCannotStep : Prop :=
  (∀ (s : State) (image : List Byte) (rest : List HostOp), s.host = .reset image :: rest → 3584 < image.length →
    ∃ t, step s = .next t ∧ t.halt = .halted (.fatal (.programTooLarge image.length)) ∧ t.host = rest) ∧
  (∀ (s : State) (n : Nat), s.halt = .halted (.fatal (.programTooLarge n)) → s.stepsNext = true →
    step s = .refused .machineNotConstructed)

/-! ### Control transfer (40_control_transfer.md) -/

/-- 1nnn and Bnnn: PC ← nnn, PC ← V0 + nnn (the sum not reduced modulo 4096), nothing else; a target above 0xFFE is accepted,
and the next fetch is out of range (40 R101, R103); that it reports the lowest bad address is the spec's choice (D32,
log 25). -/
def Obligations.JumpsSetPc : Prop :=
  (∀ (nnn : Addr12) (s : State), decode (0x1#4 ++ nnn) = .instr (.jp nnn) ∧
    ∃ t, exec (.jp nnn) s = .next t ∧ t.pc.toNat = nnn.toNat ∧ FrameBut [.pc] s t ∧
      (nnn.toNat = 0xFFF → t.fetch = .outOfRange 0x1000)) ∧
  (∀ (nnn : Addr12) (s : State), decode (0xB#4 ++ nnn) = .instr (.jpV0 nnn) ∧
    ∃ t, exec (.jpV0 nnn) s = .next t ∧ t.pc.toNat = (s.getV 0#4).toNat + nnn.toNat ∧ FrameBut [.pc] s t ∧
      (0xFFE < (s.getV 0#4).toNat + nnn.toNat →
        t.fetch = .outOfRange (max ((s.getV 0#4).toNat + nnn.toNat) 0x1000)))

/-- 3xnn and 4xnn: PC is npc + 2 exactly when the condition holds, else npc; nothing else changes (40 R105, R106). -/
def Obligations.SkipsOnImmediate : Prop :=
  (∀ (x : Nibble) (nn : Byte) (s : State), decode (0x3#4 ++ (x ++ nn)) = .instr (.seImm x nn) ∧
    ∃ t, exec (.seImm x nn) s = .next t ∧ FrameBut [.pc] s t ∧
      t.pc = if s.getV x = nn then s.pc + 4#16 else s.pc + 2#16) ∧
  (∀ (x : Nibble) (nn : Byte) (s : State), decode (0x4#4 ++ (x ++ nn)) = .instr (.sneImm x nn) ∧
    ∃ t, exec (.sneImm x nn) s = .next t ∧ FrameBut [.pc] s t ∧
      t.pc = if s.getV x ≠ nn then s.pc + 4#16 else s.pc + 2#16)

/-- 5xy0 and 9xy0: PC is npc + 2 exactly when the condition holds, else npc; nothing else changes (40 R107, R108). -/
def Obligations.SkipsOnRegister : Prop :=
  (∀ (x y : Nibble) (s : State), decode (0x5#4 ++ (x ++ (y ++ 0x0#4))) = .instr (.seReg x y) ∧
    ∃ t, exec (.seReg x y) s = .next t ∧ FrameBut [.pc] s t ∧
      t.pc = if s.getV x = s.getV y then s.pc + 4#16 else s.pc + 2#16) ∧
  (∀ (x y : Nibble) (s : State), decode (0x9#4 ++ (x ++ (y ++ 0x0#4))) = .instr (.sneReg x y) ∧
    ∃ t, exec (.sneReg x y) s = .next t ∧ FrameBut [.pc] s t ∧
      t.pc = if s.getV x ≠ s.getV y then s.pc + 4#16 else s.pc + 2#16)

/-- 2nnn below capacity: depth up by one, npc in the new top slot, PC ← nnn, nothing else (40 R102; the slot's number is
the spec's convention, log 28). -/
def Obligations.CallPushesReturnAddress : Prop :=
  ∀ (nnn : Addr12) (s : State), s.sp.val < 16 →
    decode (0x2#4 ++ nnn) = .instr (.call nnn) ∧
    ∃ t, exec (.call nnn) s = .next t ∧ t.pc.toNat = nnn.toNat ∧ t.sp.val = s.sp.val + 1 ∧
      (∀ k : Fin 16, k.val = s.sp.val → t.stack[k] = s.pc + 2#16 ∧ FrameBut [.pc, .sp, .slot k] s t)

/-- 00EE on a stack that is not empty: PC ← the top slot, depth down by one, the slot keeps its contents (40 R100; the
slot's number is the spec's convention, log 28). -/
def Obligations.ReturnPopsAddress : Prop :=
  decode 0x00EE#16 = .instr .ret ∧
  ∀ (s : State) (k : Fin 16), s.sp.val = k.val + 1 →
    ∃ t, exec .ret s = .next t ∧ t.pc = s.stack[k] ∧ t.sp.val = k.val ∧ FrameBut [.pc, .sp] s t

/-- A CALL with the stack full and a RET with it empty halt the machine with the condition and write nothing (40 R100,
R102; 60 R203, R204; that both are fatal, and the latch, are the spec's choice, log 2, log 30). -/
def Obligations.StackViolationsHalt : Prop :=
  (∀ (nnn : Addr12) (s : State), s.sp.val = 16 →
    ∃ t, exec (.call nnn) s = .next t ∧ t.halt = .halted (.fatal .stackOverflow) ∧ FrameBut [.halt] s t) ∧
  (∀ s : State, s.sp.val = 0 →
    ∃ t, exec .ret s = .next t ∧ t.halt = .halted (.fatal .stackUnderflow) ∧ FrameBut [.halt] s t)

/-- A CALL followed by a RET comes back to the address after the CALL, at the depth it had (40 R102, 95 E8). -/
def Obligations.CallThenReturnResumes : Prop :=
  ∀ (nnn : Addr12) (s : State), s.sp.val < 16 →
    ∃ t u, exec (.call nnn) s = .next t ∧ exec .ret t = .next u ∧ u.pc = s.pc + 2#16 ∧ u.sp = s.sp ∧
      ∀ k : Fin 16, k.val < s.sp.val → u.stack[k] = s.stack[k]

/-! ### Loads and arithmetic (41_alu.md) -/

/-- 6xnn and 7xnn: V[x] ← nn, V[x] ← (V[x] + nn) mod 256, no flag whatever the carry (41 R123, R124). -/
def Obligations.ImmediateLoadsAndAdds : Prop :=
  (∀ (x : Nibble) (nn : Byte) (s : State), decode (0x6#4 ++ (x ++ nn)) = .instr (.ldImm x nn) ∧
    ∃ t, exec (.ldImm x nn) s = .next t ∧ t.getV x = nn ∧ t.pc = s.pc + 2#16 ∧ FrameBut [.reg x, .pc] s t) ∧
  (∀ (x : Nibble) (nn : Byte) (s : State), decode (0x7#4 ++ (x ++ nn)) = .instr (.addImm x nn) ∧
    ∃ t, exec (.addImm x nn) s = .next t ∧ (t.getV x).toNat = ((s.getV x).toNat + nn.toNat) % 256 ∧
      t.pc = s.pc + 2#16 ∧ FrameBut [.reg x, .pc] s t)

/-- 8xy0 to 8xy3: V[x] ← V[y], or, and, exclusive or of V[x] and V[y]; VF untouched unless it is the destination (41 R125 to
R128; the shape of class 8 is PRESUMED, log 10). -/
def Obligations.RegisterLogic : Prop :=
  ∀ (x y : Nibble) (s : State),
    (∃ t, exec (.ldReg x y) s = .next t ∧ t.getV x = s.getV y ∧ t.pc = s.pc + 2#16 ∧ FrameBut [.reg x, .pc] s t) ∧
    (∃ t, exec (.orReg x y) s = .next t ∧ (∀ b, (t.getV x).getLsbD b = ((s.getV x).getLsbD b || (s.getV y).getLsbD b)) ∧
      t.pc = s.pc + 2#16 ∧ FrameBut [.reg x, .pc] s t) ∧
    (∃ t, exec (.andReg x y) s = .next t ∧ (∀ b, (t.getV x).getLsbD b = ((s.getV x).getLsbD b && (s.getV y).getLsbD b)) ∧
      t.pc = s.pc + 2#16 ∧ FrameBut [.reg x, .pc] s t) ∧
    (∃ t, exec (.xorReg x y) s = .next t ∧ (∀ b, (t.getV x).getLsbD b = ((s.getV x).getLsbD b ^^ (s.getV y).getLsbD b)) ∧
      t.pc = s.pc + 2#16 ∧ FrameBut [.reg x, .pc] s t)

/-- 8xy4: V[x] is the sum modulo 256, VF is 1 when the sum exceeds 255, else 0; with `x` = 15 the flag stands (41 R129; the
order of the two writes is the spec's choice, log 14). -/
def Obligations.AddSetsCarry : Prop :=
  ∀ (x y : Nibble) (s : State), ∃ t, exec (.addReg x y) s = .next t ∧
    (x ≠ 15#4 → (t.getV x).toNat = ((s.getV x).toNat + (s.getV y).toNat) % 256) ∧
    (t.getV 15#4).toNat = (if 255 < (s.getV x).toNat + (s.getV y).toNat then 1 else 0) ∧
    t.pc = s.pc + 2#16 ∧ FrameBut [.reg x, .reg 15#4, .pc] s t

/-- 8xy5 and 8xy7: V[x] − V[y] and V[y] − V[x] modulo 256, VF 1 when the first operand is strictly greater, else 0; with
`x` = 15 the flag stands (41 R130, R132; subcodes PRESUMED log 9, shape log 10, the written 0 log 13, the order log 14). -/
def Obligations.SubtractSetsStrictlyGreater : Prop :=
  ∀ (x y : Nibble) (s : State),
    (∃ t, exec (.subReg x y) s = .next t ∧
      (x ≠ 15#4 → (t.getV x).toNat = ((s.getV x).toNat + 256 - (s.getV y).toNat) % 256) ∧
      (t.getV 15#4).toNat = (if (s.getV y).toNat < (s.getV x).toNat then 1 else 0) ∧
      t.pc = s.pc + 2#16 ∧ FrameBut [.reg x, .reg 15#4, .pc] s t) ∧
    (∃ t, exec (.subnReg x y) s = .next t ∧
      (x ≠ 15#4 → (t.getV x).toNat = ((s.getV y).toNat + 256 - (s.getV x).toNat) % 256) ∧
      (t.getV 15#4).toNat = (if (s.getV x).toNat < (s.getV y).toNat then 1 else 0) ∧
      t.pc = s.pc + 2#16 ∧ FrameBut [.reg x, .reg 15#4, .pc] s t)

/-- 8xy6 and 8xyE: V[x] shifted by one in place, VF the bit shifted out, whatever `y` is; with `x` = 15 the flag stands
(41 R131, R133; the source register is the spec's choice, log 12, the order of the writes log 14). -/
def Obligations.ShiftsSetLostBit : Prop :=
  ∀ (x y : Nibble) (s : State),
    (∃ t, exec (.shr x y) s = .next t ∧ (x ≠ 15#4 → (t.getV x).toNat = (s.getV x).toNat / 2) ∧
      (t.getV 15#4).toNat = (s.getV x).toNat % 2 ∧ t.pc = s.pc + 2#16 ∧ FrameBut [.reg x, .reg 15#4, .pc] s t) ∧
    (∃ t, exec (.shl x y) s = .next t ∧ (x ≠ 15#4 → (t.getV x).toNat = (s.getV x).toNat * 2 % 256) ∧
      (t.getV 15#4).toNat = (s.getV x).toNat / 128 ∧ t.pc = s.pc + 2#16 ∧ FrameBut [.reg x, .reg 15#4, .pc] s t)

/-- Cxnn: V[x] is the STEP's random byte, any byte, and nn; so it never has a bit nn lacks (41 R134; the byte is a free
value, log 5). -/
def Obligations.RandomIsMasked : Prop :=
  ∀ (x : Nibble) (nn : Byte) (s : State), ∃ t, exec (.rnd x nn) s = .next t ∧ t.pc = s.pc + 2#16 ∧
    FrameBut [.reg x, .pc] s t ∧ (∀ b, nn.getLsbD b = false → (t.getV x).getLsbD b = false) ∧
    (∀ (keys : Keys) (rnd : Byte) (rest : List HostOp), s.host = .step keys rnd :: rest →
      ∀ b, (t.getV x).getLsbD b = (rnd.getLsbD b && nn.getLsbD b))

/-! ### Index register and memory (42_index_memory.md) -/

/-- Annn: I ← nnn, nothing else (42 R150). -/
def Obligations.LoadIndex : Prop :=
  ∀ (nnn : Addr12) (s : State), decode (0xA#4 ++ nnn) = .instr (.ldI nnn) ∧
    ∃ t, exec (.ldI nnn) s = .next t ∧ t.i.toNat = nnn.toNat ∧ t.pc = s.pc + 2#16 ∧ FrameBut [.index, .pc] s t

/-- Fx1E: I ← I + V[x] modulo 65536, VF 1 when the new I exceeds 0xFFF, else 0 (42 R151; the width of the add and what is
compared are the spec's choice, log 16, the written 0 log 13). -/
def Obligations.AddIndexSetsFlag : Prop :=
  ∀ (x : Nibble) (s : State), ∃ t, exec (.addI x) s = .next t ∧
    t.i.toNat = (s.i.toNat + (s.getV x).toNat) % 65536 ∧
    (t.getV 15#4).toNat = (if 0x0FFF < (s.i.toNat + (s.getV x).toNat) % 65536 then 1 else 0) ∧
    t.pc = s.pc + 2#16 ∧ FrameBut [.index, .reg 15#4, .pc] s t

/-- Fx29: I ← 0x050 + 5·V[x] for all 256 values, nothing else (42 R152; unmasked is the spec's choice, log 17). -/
def Obligations.FontAddress : Prop :=
  ∀ (x : Nibble) (s : State), ∃ t, exec (.ldF x) s = .next t ∧ t.i.toNat = 0x050 + 5 * (s.getV x).toNat ∧
    t.pc = s.pc + 2#16 ∧ FrameBut [.index, .pc] s t

/-- Fx33 in range: hundreds, tens and ones at I, I + 1, I + 2; every other byte and piece of state as before, I included
(42 R153, R154; the order of the digits is PRESUMED, log 11, I unchanged log 15). -/
def Obligations.BcdStoresDigits : Prop :=
  ∀ (x : Nibble) (s : State), s.mem.wf = true → s.i.toNat + 2 ≤ 0x0FFF →
    ∃ t, exec (.ldB x) s = .next t ∧ (t.mem.read s.i.toNat).toNat = (s.getV x).toNat / 100 ∧
      (t.mem.read (s.i.toNat + 1)).toNat = (s.getV x).toNat / 10 % 10 ∧
      (t.mem.read (s.i.toNat + 2)).toNat = (s.getV x).toNat % 10 ∧ t.pc = s.pc + 2#16 ∧
      Frame (fun p => p = .pc ∨ ∃ k < 3, p = .byte (s.i.toNat + k)) s t

/-- Fx55 in range: V[k] at I + k for k = 0..x; every other byte and piece of state as before, I included (42 R155; I
unchanged is the spec's choice, log 15). -/
def Obligations.BlockStore : Prop :=
  ∀ (x : Nibble) (s : State), s.mem.wf = true → s.i.toNat + x.toNat ≤ 0x0FFF →
    ∃ t, exec (.ldMemVx x) s = .next t ∧
      (∀ r : Nibble, r.toNat ≤ x.toNat → t.mem.read (s.i.toNat + r.toNat) = s.getV r) ∧ t.pc = s.pc + 2#16 ∧
      Frame (fun p => p = .pc ∨ ∃ k ≤ x.toNat, p = .byte (s.i.toNat + k)) s t

/-- Fx65 in range: V[k] ← MEM[I + k] for k = 0..x; every other register and piece of state as before, I included (42 R156;
I unchanged is the spec's choice, log 15). -/
def Obligations.BlockLoad : Prop :=
  ∀ (x : Nibble) (s : State), s.i.toNat + x.toNat ≤ 0x0FFF →
    ∃ t, exec (.ldVxMem x) s = .next t ∧
      (∀ r : Nibble, r.toNat ≤ x.toNat → t.getV r = s.mem.read (s.i.toNat + r.toNat)) ∧ t.pc = s.pc + 2#16 ∧
      Frame (fun p => p = .pc ∨ ∃ r : Nibble, r.toNat ≤ x.toNat ∧ p = .reg r) s t

/-- An access through I that reaches an address at or above 4096 halts with AddressOutOfRange and the lowest such address,
and nothing of the instruction is written: Fx33, Fx55, Fx65, Dxyn (60 R202, R209). The spec's choices: the latch (log 2),
untruncated sums and the lowest address reported (D37, D32, log 25), clipped rows count (D26, log 22), precision (D8, log 30). -/
def Obligations.IndexOutOfRangeHalts : Prop :=
  ∀ (x y n : Nibble) (s : State),
    let halts (i : Instr) : Prop := ∃ t, exec i s = .next t ∧
      t.halt = .halted (.fatal (.addressOutOfRange (max s.i.toNat 0x1000))) ∧ FrameBut [.halt] s t
    (0x0FFF < s.i.toNat + 2 → halts (.ldB x)) ∧
    (0x0FFF < s.i.toNat + x.toNat → halts (.ldMemVx x) ∧ halts (.ldVxMem x)) ∧
    (1 ≤ n.toNat → 0x0FFF < s.i.toNat + n.toNat - 1 → halts (.drw x y n))

/-- A stored instruction is what the next fetch reads: after Fx55 with `x` ≥ 1 into the two bytes that follow it, the fetch
gives V0 as the high byte and V1 as the low one (20 R52, R63; that a store to the program succeeds and the next fetch sees
it is the spec's choice, D33, log 32). -/
def Obligations.StoreIsFetchedNext : Prop :=
  ∀ (x : Nibble) (s : State), s.mem.wf = true → 1 ≤ x.toNat → s.i.toNat + x.toNat ≤ 0x0FFF → s.i = s.pc + 2#16 →
    ∃ t, exec (.ldMemVx x) s = .next t ∧ t.fetch = .word (s.getV 0#4 ++ s.getV 1#4)

/-! ### Display (43_display.md) -/

/-- 00E0: every cell 0 and DIRTY set, blank display or not; VF and everything else as before (43 R171). -/
def Obligations.ClearScreen : Prop :=
  decode 0x00E0#16 = .instr .cls ∧
  ∀ s : State, ∃ t, exec .cls s = .next t ∧ (∀ r c, t.disp.cell r c = false) ∧ t.dirty = true ∧ t.pc = s.pc + 2#16 ∧
    Frame (fun p => p = .pc ∨ p = .dirty ∨ ∃ r c, p = .cell r c) s t

/-- Dxyn in range, `n` = 0 included: each cell of the grid the sprite covers toggles and no other; VF is 1 when a lit cell
was turned off, else 0; DIRTY is set when a cell toggled; the rest as before (43 R170, R172). The spec's
choices: the origin is read before VF is cleared (D11, log 14), I keeps its value (D19, log 15), all rows are range-checked,
clipped or not (D26, log 22). -/
def Obligations.DrawTogglesCoveredCells : Prop :=
  ∀ (x y n : Nibble) (s : State), (n.toNat = 0 ∨ s.i.toNat + n.toNat - 1 ≤ 0x0FFF) →
    let covers := spriteCovers (s.mem.readBytes s.i.toNat n.toNat) ((s.getV x).toNat % 64) ((s.getV y).toNat % 32)
    ∃ t, exec (.drw x y n) s = .next t ∧ t.pc = s.pc + 2#16 ∧
      (∀ r c, r < 32 → c < 64 → t.disp.cell r c = (s.disp.cell r c ^^ covers r c)) ∧
      ((∃ r c, r < 32 ∧ c < 64 ∧ covers r c = true ∧ s.disp.cell r c = true) → t.getV 15#4 = 1#8) ∧
      ((¬ ∃ r c, r < 32 ∧ c < 64 ∧ covers r c = true ∧ s.disp.cell r c = true) → t.getV 15#4 = 0#8) ∧
      (t.dirty = true ↔ s.dirty = true ∨ ∃ r c, r < 32 ∧ c < 64 ∧ covers r c = true) ∧
      Frame (fun p => p = .pc ∨ p = .reg 15#4 ∨ p = .dirty ∨ ∃ r c, r < 32 ∧ c < 64 ∧ p = .cell r c) s t

/-- Two draws with the same I, the same sprite bytes, the same `n` and the same origin, DISP not written between: the
display is restored; the second ends with VF = 1 exactly when the first turned a cell on; on a display blank under the
sprite the first ends with 0 and, where a set bit falls on the grid, the second with 1; where every covered cell was lit
the second ends with 0, and with a set bit on the grid the first ends with 1 (43 R173, which the spec derives from R172). -/
def Obligations.DrawTwiceRestores : Prop :=
  ∀ (x y x' y' n : Nibble) (s t s' u : State), (n.toNat = 0 ∨ s.i.toNat + n.toNat - 1 ≤ 0x0FFF) →
    exec (.drw x y n) s = .next t → s'.disp = t.disp → s'.i = s.i →
    s'.mem.readBytes s'.i.toNat n.toNat = s.mem.readBytes s.i.toNat n.toNat →
    (s'.getV x').toNat % 64 = (s.getV x).toNat % 64 → (s'.getV y').toNat % 32 = (s.getV y).toNat % 32 →
    exec (.drw x' y' n) s' = .next u →
    let covered (r c : Nat) : Prop := r < 32 ∧ c < 64 ∧
      spriteCovers (s.mem.readBytes s.i.toNat n.toNat) ((s.getV x).toNat % 64) ((s.getV y).toNat % 32) r c = true
    u.disp = s.disp ∧
    (u.getV 15#4 = 1#8 ↔ ∃ r c, r < 32 ∧ c < 64 ∧ s.disp.cell r c = false ∧ t.disp.cell r c = true) ∧
    (u.getV 15#4 = 1#8 ∨ u.getV 15#4 = 0#8) ∧
    ((∀ r c, covered r c → s.disp.cell r c = false) → t.getV 15#4 = 0#8 ∧
      ((∃ r c, covered r c) → u.getV 15#4 = 1#8)) ∧
    ((∀ r c, covered r c → s.disp.cell r c = true) → u.getV 15#4 = 0#8 ∧
      ((∃ r c, covered r c) → t.getV 15#4 = 1#8))

/-! ### Keypad and timers (44_keypad_timers.md) -/

/-- Ex9E and ExA1 with a key index 0..15 in V[x]: a skip exactly when that key is down, or not down; nothing else changes
(44 R185, R186; KEYS is any 16 levels, log 6). -/
def Obligations.SkipsOnKey : Prop :=
  ∀ (x : Nibble) (s : State) (k : Fin 16), (s.getV x).toNat = k.val →
    (∃ t, exec (.skp x) s = .next t ∧ FrameBut [.pc] s t ∧
      t.pc = if s.keys[k] = true then s.pc + 4#16 else s.pc + 2#16) ∧
    (∃ t, exec (.sknp x) s = .next t ∧ FrameBut [.pc] s t ∧
      t.pc = if s.keys[k] = false then s.pc + 4#16 else s.pc + 2#16)

/-- Ex9E and ExA1 with V[x] > 15 halt with KeyIndexOutOfRange and write nothing else, PC kept at the instruction
(44 R185, R186, 60 R206, R209). The spec's choices: the condition (D20, log 18), the latch (log 2), that nothing but HALT
changes (D8, log 30), the index it carries (D32, log 25). -/
def Obligations.KeyIndexOutOfRangeHalts : Prop :=
  ∀ (x : Nibble) (s : State), 15 < (s.getV x).toNat →
    (∃ t, exec (.skp x) s = .next t ∧ t.halt = .halted (.fatal (.keyIndexOutOfRange (s.getV x))) ∧
      FrameBut [.halt] s t) ∧
    (∃ t, exec (.sknp x) s = .next t ∧ t.halt = .halted (.fatal (.keyIndexOutOfRange (s.getV x))) ∧
      FrameBut [.halt] s t)

/-- Fx0A: with keys down V[x] takes the lowest index and PC advances; with none down every piece of state, PC included, is
exactly as it was (44 R187). -/
def Obligations.WaitKeyTakesLowestKey : Prop :=
  ∀ (x : Nibble) (s : State), decode (0xF#4 ++ (x ++ 0x0A#8)) = .instr (.ldVxK x) ∧
    (∀ k : Fin 16, s.keys[k] = true → (∀ j : Fin 16, j < k → s.keys[j] = false) →
      ∃ t, exec (.ldVxK x) s = .next t ∧ (t.getV x).toNat = k.val ∧ t.pc = s.pc + 2#16 ∧ FrameBut [.reg x, .pc] s t) ∧
    ((∀ k : Fin 16, s.keys[k] = false) → ∃ t, exec (.ldVxK x) s = .next t ∧ FrameBut [] s t)

/-- Fx07, Fx15, Fx18: V[x] ← DT, DT ← V[x], ST ← V[x], nothing else; and no other instruction changes DT or ST (44 R188,
R189, R190). -/
def Obligations.TimerTransfers : Prop :=
  (∀ (x : Nibble) (s : State),
    decode (0xF#4 ++ (x ++ 0x07#8)) = .instr (.ldVxDt x) ∧
    (∃ t, exec (.ldVxDt x) s = .next t ∧ t.getV x = s.dt ∧ t.pc = s.pc + 2#16 ∧ FrameBut [.reg x, .pc] s t) ∧
    decode (0xF#4 ++ (x ++ 0x15#8)) = .instr (.ldDtVx x) ∧
    (∃ t, exec (.ldDtVx x) s = .next t ∧ t.dt = s.getV x ∧ t.pc = s.pc + 2#16 ∧ FrameBut [.delay, .pc] s t) ∧
    decode (0xF#4 ++ (x ++ 0x18#8)) = .instr (.ldStVx x) ∧
    (∃ t, exec (.ldStVx x) s = .next t ∧ t.st = s.getV x ∧ t.sound = (s.getV x != 0#8) ∧ t.pc = s.pc + 2#16 ∧
      FrameBut [.sound, .pc] s t)) ∧
  (∀ (i : Instr) (s t : State), exec i s = .next t →
    (t.dt ≠ s.dt → ∃ x, i = .ldDtVx x) ∧ (t.st ≠ s.st → ∃ x, i = .ldStVx x))

/-! ### Whole-machine rules -/

/-- Every instruction, in every state, answers a next state: no instruction of the map is ever refused or stuck (30 R79,
60 R212; a fatal condition is a described state, log 2). -/
def Obligations.EveryInstructionAnswers : Prop := ∀ (i : Instr) (s : State), ∃ t, exec i s = .next t

/-- "No operation other than those marked sets VF": VF changes only by the seven flag writers, or as the ordinary
destination of an instruction (10 R21, R22). -/
def Obligations.OnlyMarkedInstructionsSetVF : Prop :=
  ∀ (i : Instr) (s t : State), exec i s = .next t → t.getV 15#4 ≠ s.getV 15#4 →
    i.writesFlag = true ∨ i.hasDest 15#4 = true

/-- A general register other than VF changes only as a destination the table of 10 R21 gives the instruction. -/
def Obligations.OnlyDestinationsChange : Prop :=
  ∀ (i : Instr) (s t : State) (r : Nibble), exec i s = .next t → r ≠ 15#4 → t.getV r ≠ s.getV r → i.hasDest r = true

/-- Who writes what (10_state.md section 1; R26, R29, R32, R33): I only by Annn, Fx1E, Fx29 (that Fx33, Fx55, Fx65 and Dxyn
leave I is the spec's choice, D19, log 15); SP and STACK only by 2nnn and 00EE; the
display and DIRTY only by 00E0 and Dxyn; memory only by Fx33 and Fx55. -/
def Obligations.EachPieceHasItsWriters : Prop :=
  ∀ (i : Instr) (s t : State), exec i s = .next t →
    (t.i ≠ s.i → (∃ n, i = .ldI n) ∨ (∃ x, i = .addI x) ∨ (∃ x, i = .ldF x)) ∧
    (t.sp ≠ s.sp → (∃ n, i = .call n) ∨ i = .ret) ∧
    (t.stack ≠ s.stack → ∃ n, i = .call n) ∧
    (t.disp ≠ s.disp → i = .cls ∨ ∃ x y n, i = .drw x y n) ∧
    (t.dirty ≠ s.dirty → t.dirty = true ∧ (i = .cls ∨ ∃ x y n, i = .drw x y n)) ∧
    (t.mem ≠ s.mem → (∃ x, i = .ldB x) ∨ ∃ x, i = .ldMemVx x)

/-- A halted machine is left only by RESET: any other operation that answers a next state keeps the cause (10 R34, 70 R242;
the latch is the spec's choice, log 31). -/
def Obligations.OnlyResetLeavesHalt : Prop :=
  ∀ s t : State, step s = .next t → s.halt ≠ .running → (∀ image rest, s.host ≠ .reset image :: rest) →
    t.halt = s.halt

/-- No instruction reads ST, DIRTY, HALT or the diagnostic: two states that differ only there go to states that differ
only there (10 R31, R33, R34, R38). -/
def Obligations.HostOnlyStateIsNeverRead : Prop :=
  ∀ (i : Instr) (s : State) (st : Byte) (dirty : Bool) (halt : Halt) (diag : Option Diagnostic),
    ∃ t u, exec i s = .next t ∧ exec i { s with st := st, dirty := dirty, halt := halt, diag := diag } = .next u ∧
      FrameBut [.sound, .dirty, .halt, .diag] t u

/-- Only Ex9E, ExA1, Fx0A look at the keys and only Cxnn at the random byte: any other instruction does the same under any
inputs (10 R35, R36). -/
def Obligations.OtherInstructionsIgnoreInputs : Prop :=
  ∀ (i : Instr) (s : State) (host : List HostOp) (opNo : Nat), i.readsInput = false →
    ∃ t u, exec i s = .next t ∧ exec i { s with host := host, opNo := opNo } = .next u ∧ FrameBut [.schedule] t u

/-- PC and the return addresses stay even unless a jump, call or JP V0 goes to an odd address (20 R53). -/
def Obligations.PcStaysEven : Prop :=
  ∀ (i : Instr) (s t : State), exec i s = .next t → s.pc.toNat % 2 = 0 → (∀ k : Fin 16, s.stack[k].toNat % 2 = 0) →
    (∀ n, i = .jp n ∨ i = .call n → n.toNat % 2 = 0) →
    (∀ n, i = .jpV0 n → ((s.getV 0#4).toNat + n.toNat) % 2 = 0) →
    t.pc.toNat % 2 = 0 ∧ ∀ k : Fin 16, t.stack[k].toNat % 2 = 0

/-- A self-jump, 1nnn at address nnn, leaves the whole machine unchanged by a STEP (70 R255; the convention is the spec's,
the fixed point is not). -/
def Obligations.SelfJumpIsFixedPoint : Prop :=
  ∀ (s : State) (nnn : Addr12), s.halt = .running → s.stepsNext = true → s.pc.toNat = nnn.toNat →
    s.fetch = .word (0x1#4 ++ nnn) →
    ∃ t, step s = .next t ∧ t.diag = none ∧ FrameBut [.diag, .schedule] s t

/-- The invariant holds at reset. -/
def Obligations.ResetMeetsBounds : Prop := State.reset.Inv

/-- Every step of the machine, every host operation included, keeps the invariant: memory in canonical form, PC at most
0x10FE, every return address at most 0x1000 (10 R25; 20 R50). -/
def Obligations.StepKeepsBounds : Prop := ∀ s t : State, s.Inv → step s = .next t → t.Inv
end

