-- ==== Sys2Proof/Laws/Decode.lean ====
section
/-! SUPPORT. Fields of packed words, and packed words of fields (spec/30_encoding.md R71, R72). -/

namespace Sys2Proof

/-! ### The bits of a packed word -/

theorem packNNN_getLsbD (c : Nibble) (a : Addr12) (i : Nat) :
    (packNNN c a).getLsbD i = if i < 12 then a.getLsbD i else c.getLsbD (i - 12) := by
  have h : (packNNN c a).getLsbD i = (c ++ a : BitVec (4 + 12)).getLsbD i := rfl
  rw [h, BitVec.getLsbD_append]

theorem packXNN_getLsbD (c x : Nibble) (nn : Byte) (i : Nat) :
    (packXNN c x nn).getLsbD i =
      if i < 8 then nn.getLsbD i else if i < 12 then x.getLsbD (i - 8) else c.getLsbD (i - 12) := by
  have h : (packXNN c x nn).getLsbD i = (c ++ (x ++ nn : BitVec (4 + 8)) : BitVec (4 + (4 + 8))).getLsbD i := rfl
  rw [h, BitVec.getLsbD_append, BitVec.getLsbD_append]
  by_cases h1 : i < 8
  · simp [h1, show i < 12 by omega]
  · by_cases h2 : i < 12 <;> simp [h1, h2]

theorem packXYN_getLsbD (c x y n : Nibble) (i : Nat) :
    (packXYN c x y n).getLsbD i =
      if i < 4 then n.getLsbD i else if i < 8 then y.getLsbD (i - 4)
      else if i < 12 then x.getLsbD (i - 8) else c.getLsbD (i - 12) := by
  have h : (packXYN c x y n).getLsbD i =
      (c ++ (x ++ (y ++ n : BitVec (4 + 4)) : BitVec (4 + (4 + 4))) : BitVec (4 + (4 + (4 + 4)))).getLsbD i := rfl
  rw [h, BitVec.getLsbD_append, BitVec.getLsbD_append, BitVec.getLsbD_append]
  by_cases h1 : i < 4
  · simp [h1, show i < 8 by omega, show i < 12 by omega]
  · by_cases h2 : i < 8
    · simp [h1, h2, show i < 12 by omega]
    · by_cases h3 : i < 12 <;> simp [h1, h2, h3]

/-! ### The bits of a field -/

theorem classOf_getLsbD (w : Word) (i : Nat) : (classOf w).getLsbD i = (decide (i < 4) && w.getLsbD (12 + i)) := by
  simp [classOf]

theorem fieldX_getLsbD (w : Word) (i : Nat) : (fieldX w).getLsbD i = (decide (i < 4) && w.getLsbD (8 + i)) := by
  simp [fieldX]

theorem fieldY_getLsbD (w : Word) (i : Nat) : (fieldY w).getLsbD i = (decide (i < 4) && w.getLsbD (4 + i)) := by
  simp [fieldY]

theorem fieldN_getLsbD (w : Word) (i : Nat) : (fieldN w).getLsbD i = (decide (i < 4) && w.getLsbD i) := by
  simp [fieldN]

theorem fieldNN_getLsbD (w : Word) (i : Nat) : (fieldNN w).getLsbD i = (decide (i < 8) && w.getLsbD i) := by
  simp [fieldNN]

theorem fieldNNN_getLsbD (w : Word) (i : Nat) : (fieldNNN w).getLsbD i = (decide (i < 12) && w.getLsbD i) := by
  simp [fieldNNN]

/-! ### The fields of a packed word -/

@[simp] theorem classOf_packNNN (c : Nibble) (a : Addr12) : classOf (packNNN c a) = c := by
  apply BitVec.eq_of_getLsbD_eq; intro i hi
  rw [classOf_getLsbD, packNNN_getLsbD, if_neg (by omega)]; simp [hi]

@[simp] theorem fieldNNN_packNNN (c : Nibble) (a : Addr12) : fieldNNN (packNNN c a) = a := by
  apply BitVec.eq_of_getLsbD_eq; intro i hi
  rw [fieldNNN_getLsbD, packNNN_getLsbD, if_pos hi]; simp [hi]

@[simp] theorem classOf_packXNN (c x : Nibble) (nn : Byte) : classOf (packXNN c x nn) = c := by
  apply BitVec.eq_of_getLsbD_eq; intro i hi
  rw [classOf_getLsbD, packXNN_getLsbD, if_neg (by omega), if_neg (by omega)]; simp [hi]

@[simp] theorem fieldX_packXNN (c x : Nibble) (nn : Byte) : fieldX (packXNN c x nn) = x := by
  apply BitVec.eq_of_getLsbD_eq; intro i hi
  rw [fieldX_getLsbD, packXNN_getLsbD, if_neg (by omega), if_pos (by omega)]; simp [hi]

@[simp] theorem fieldNN_packXNN (c x : Nibble) (nn : Byte) : fieldNN (packXNN c x nn) = nn := by
  apply BitVec.eq_of_getLsbD_eq; intro i hi
  rw [fieldNN_getLsbD, packXNN_getLsbD, if_pos hi]; simp [hi]

@[simp] theorem classOf_packXYN (c x y n : Nibble) : classOf (packXYN c x y n) = c := by
  apply BitVec.eq_of_getLsbD_eq; intro i hi
  rw [classOf_getLsbD, packXYN_getLsbD, if_neg (by omega), if_neg (by omega), if_neg (by omega)]; simp [hi]

@[simp] theorem fieldX_packXYN (c x y n : Nibble) : fieldX (packXYN c x y n) = x := by
  apply BitVec.eq_of_getLsbD_eq; intro i hi
  rw [fieldX_getLsbD, packXYN_getLsbD, if_neg (by omega), if_neg (by omega), if_pos (by omega)]; simp [hi]

@[simp] theorem fieldY_packXYN (c x y n : Nibble) : fieldY (packXYN c x y n) = y := by
  apply BitVec.eq_of_getLsbD_eq; intro i hi
  rw [fieldY_getLsbD, packXYN_getLsbD, if_neg (by omega), if_pos (by omega)]; simp [hi]

@[simp] theorem fieldN_packXYN (c x y n : Nibble) : fieldN (packXYN c x y n) = n := by
  apply BitVec.eq_of_getLsbD_eq; intro i hi
  rw [fieldN_getLsbD, packXYN_getLsbD, if_pos hi]; simp [hi]

/-! ### A word is its packed fields -/

theorem packNNN_fields (w : Word) : packNNN (classOf w) (fieldNNN w) = w := by
  apply BitVec.eq_of_getLsbD_eq; intro i hi
  rw [packNNN_getLsbD, fieldNNN_getLsbD, classOf_getLsbD]
  split
  · simp [*]
  · rw [show 12 + (i - 12) = i by omega]; simp; omega

theorem packXNN_fields (w : Word) : packXNN (classOf w) (fieldX w) (fieldNN w) = w := by
  apply BitVec.eq_of_getLsbD_eq; intro i hi
  rw [packXNN_getLsbD, fieldNN_getLsbD, fieldX_getLsbD, classOf_getLsbD]
  split
  · simp [*]
  · split
    · rw [show 8 + (i - 8) = i by omega]; simp; omega
    · rw [show 12 + (i - 12) = i by omega]; simp; omega

theorem packXYN_fields (w : Word) : packXYN (classOf w) (fieldX w) (fieldY w) (fieldN w) = w := by
  apply BitVec.eq_of_getLsbD_eq; intro i hi
  rw [packXYN_getLsbD, fieldN_getLsbD, fieldY_getLsbD, fieldX_getLsbD, classOf_getLsbD]
  split
  · simp [*]
  · split
    · rw [show 4 + (i - 4) = i by omega]; simp; omega
    · split
      · rw [show 8 + (i - 8) = i by omega]; simp; omega
      · rw [show 12 + (i - 12) = i by omega]; simp; omega

/-! ### A masked packed word -/

/-- A row of format NNN selects every word of its class. -/
theorem packNNN_mask (c : Nibble) (a : Addr12) : packNNN c a &&& 0xF000#16 = packNNN c 0#12 := by
  apply BitVec.eq_of_getLsbD_eq; intro i hi
  rw [BitVec.getLsbD_and, packNNN_getLsbD, packNNN_getLsbD]
  interval_cases i <;> simp [BitVec.getLsbD] <;> intros <;> decide

/-- A row of format XNN selects every word of its class. -/
theorem packXNN_mask (c x : Nibble) (nn : Byte) : packXNN c x nn &&& 0xF000#16 = packXNN c 0#4 0#8 := by
  apply BitVec.eq_of_getLsbD_eq; intro i hi
  rw [BitVec.getLsbD_and, packXNN_getLsbD, packXNN_getLsbD]
  interval_cases i <;> simp [BitVec.getLsbD] <;> intros <;> decide

/-- A row of format XSS selects every word of its class and subcode. -/
theorem packXSS_mask (c x : Nibble) (nn : Byte) : packXNN c x nn &&& 0xF0FF#16 = packXNN c 0#4 nn := by
  apply BitVec.eq_of_getLsbD_eq; intro i hi
  rw [BitVec.getLsbD_and, packXNN_getLsbD, packXNN_getLsbD]
  interval_cases i <;> simp [BitVec.getLsbD] <;> intros <;> decide

/-- A row of format XYN with a subcode selects every word of its class and subcode. -/
theorem packXYS_mask (c x y n : Nibble) : packXYN c x y n &&& 0xF00F#16 = packXYN c 0#4 0#4 n := by
  apply BitVec.eq_of_getLsbD_eq; intro i hi
  rw [BitVec.getLsbD_and, packXYN_getLsbD, packXYN_getLsbD]
  interval_cases i <;> simp [BitVec.getLsbD] <;> intros <;> decide

/-- The row of Dxyn selects every word of its class. -/
theorem packXYN_mask (c x y n : Nibble) : packXYN c x y n &&& 0xF000#16 = packXYN c 0#4 0#4 0#4 := by
  apply BitVec.eq_of_getLsbD_eq; intro i hi
  rw [BitVec.getLsbD_and, packXYN_getLsbD, packXYN_getLsbD]
  interval_cases i <;> simp [BitVec.getLsbD] <;> intros <;> decide

/-! ### The bytes of a word -/

/-- A word's bytes, high first, form the word again (20 R52). -/
theorem wordOf_wordBytes (w : Word) : wordOf (w.extractLsb' 8 8) (w.extractLsb' 0 8) = w := by
  apply BitVec.eq_of_getLsbD_eq; intro i hi
  have h : (wordOf (w.extractLsb' 8 8) (w.extractLsb' 0 8)).getLsbD i =
      (w.extractLsb' 8 8 ++ w.extractLsb' 0 8 : BitVec (8 + 8)).getLsbD i := rfl
  rw [h, BitVec.getLsbD_append]
  by_cases h1 : i < 8
  · simp [h1]
  · simp [h1, show i - 8 < 8 by omega, show 8 + (i - 8) = i by omega]

@[simp] theorem decodeBytes_wordBytes (w : Word) (rest : List Byte) :
    decodeBytes (wordBytes w ++ rest) = .ok (decode w, rest) := by
  simp [wordBytes, decodeBytes, wordOf_wordBytes]

end Sys2Proof
end

