-- ==== Sys2Proof/Laws/State.lean ====
section
/-! SUPPORT. What each update of State leaves in each field: one lemma per field and update, true by rfl. -/

namespace Sys2Proof.Machine

/-! ### The types have the sizes of the parameters (spec/00_scope.md R5) -/

theorem byte_width : Byte = BitVec Config.xlen := rfl
theorem word_width : Word = BitVec Config.ilen := rfl
theorem keys_size : Keys = Vector Bool Config.nKeys := rfl
theorem display_size : Display = Vector (Vector Bool Config.dispW) Config.dispH := rfl
theorem State.v_size (s : State) : s.v.size = Config.nRegs := rfl
theorem State.stack_size (s : State) : s.stack.size = Config.stackCap := rfl
theorem State.sp_le (s : State) : s.sp.val ≤ Config.stackCap := Nat.le_of_lt_succ s.sp.isLt
theorem encodeBytes_length (i : Instr) : (encodeBytes i).length = Config.insnBytes := rfl
theorem fontTable_length : fontTable.length = 16 * Config.fontStride := rfl
theorem font_region : Config.fontEnd + 1 = Config.fontBase + fontTable.length := rfl
theorem program_region : Config.progBase + Config.progMax = Config.memSize := rfl

/-! ### After the fetch advance -/

@[simp] theorem State.advance_v (s : State) : (s.advance).v = s.v := rfl
@[simp] theorem State.advance_i (s : State) : (s.advance).i = s.i := rfl
@[simp] theorem State.advance_pc (s : State) : (s.advance).pc = s.pc + 2#16 := rfl
@[simp] theorem State.advance_stack (s : State) : (s.advance).stack = s.stack := rfl
@[simp] theorem State.advance_sp (s : State) : (s.advance).sp = s.sp := rfl
@[simp] theorem State.advance_dt (s : State) : (s.advance).dt = s.dt := rfl
@[simp] theorem State.advance_st (s : State) : (s.advance).st = s.st := rfl
@[simp] theorem State.advance_disp (s : State) : (s.advance).disp = s.disp := rfl
@[simp] theorem State.advance_dirty (s : State) : (s.advance).dirty = s.dirty := rfl
@[simp] theorem State.advance_halt (s : State) : (s.advance).halt = s.halt := rfl
@[simp] theorem State.advance_mem (s : State) : (s.advance).mem = s.mem := rfl
@[simp] theorem State.advance_host (s : State) : (s.advance).host = s.host := rfl
@[simp] theorem State.advance_opNo (s : State) : (s.advance).opNo = s.opNo := rfl
@[simp] theorem State.advance_diag (s : State) : (s.advance).diag = s.diag := rfl
@[simp] theorem State.advance_getV (s : State) (r : Nibble) : (s.advance).getV r = s.getV r := rfl

/-! ### After a write of PC -/

@[simp] theorem State.jump_v (s : State) (target : Word) : (s.jump target).v = s.v := rfl
@[simp] theorem State.jump_i (s : State) (target : Word) : (s.jump target).i = s.i := rfl
@[simp] theorem State.jump_pc (s : State) (target : Word) : (s.jump target).pc = target := rfl
@[simp] theorem State.jump_stack (s : State) (target : Word) : (s.jump target).stack = s.stack := rfl
@[simp] theorem State.jump_sp (s : State) (target : Word) : (s.jump target).sp = s.sp := rfl
@[simp] theorem State.jump_dt (s : State) (target : Word) : (s.jump target).dt = s.dt := rfl
@[simp] theorem State.jump_st (s : State) (target : Word) : (s.jump target).st = s.st := rfl
@[simp] theorem State.jump_disp (s : State) (target : Word) : (s.jump target).disp = s.disp := rfl
@[simp] theorem State.jump_dirty (s : State) (target : Word) : (s.jump target).dirty = s.dirty := rfl
@[simp] theorem State.jump_halt (s : State) (target : Word) : (s.jump target).halt = s.halt := rfl
@[simp] theorem State.jump_mem (s : State) (target : Word) : (s.jump target).mem = s.mem := rfl
@[simp] theorem State.jump_host (s : State) (target : Word) : (s.jump target).host = s.host := rfl
@[simp] theorem State.jump_opNo (s : State) (target : Word) : (s.jump target).opNo = s.opNo := rfl
@[simp] theorem State.jump_diag (s : State) (target : Word) : (s.jump target).diag = s.diag := rfl
@[simp] theorem State.jump_getV (s : State) (target : Word) (r : Nibble) : (s.jump target).getV r = s.getV r := rfl

/-! ### After a register write -/

@[simp] theorem State.setV_i (s : State) (x : Nibble) (b : Byte) : (s.setV x b).i = s.i := rfl
@[simp] theorem State.setV_pc (s : State) (x : Nibble) (b : Byte) : (s.setV x b).pc = s.pc := rfl
@[simp] theorem State.setV_stack (s : State) (x : Nibble) (b : Byte) : (s.setV x b).stack = s.stack := rfl
@[simp] theorem State.setV_sp (s : State) (x : Nibble) (b : Byte) : (s.setV x b).sp = s.sp := rfl
@[simp] theorem State.setV_dt (s : State) (x : Nibble) (b : Byte) : (s.setV x b).dt = s.dt := rfl
@[simp] theorem State.setV_st (s : State) (x : Nibble) (b : Byte) : (s.setV x b).st = s.st := rfl
@[simp] theorem State.setV_disp (s : State) (x : Nibble) (b : Byte) : (s.setV x b).disp = s.disp := rfl
@[simp] theorem State.setV_dirty (s : State) (x : Nibble) (b : Byte) : (s.setV x b).dirty = s.dirty := rfl
@[simp] theorem State.setV_halt (s : State) (x : Nibble) (b : Byte) : (s.setV x b).halt = s.halt := rfl
@[simp] theorem State.setV_mem (s : State) (x : Nibble) (b : Byte) : (s.setV x b).mem = s.mem := rfl
@[simp] theorem State.setV_host (s : State) (x : Nibble) (b : Byte) : (s.setV x b).host = s.host := rfl
@[simp] theorem State.setV_opNo (s : State) (x : Nibble) (b : Byte) : (s.setV x b).opNo = s.opNo := rfl
@[simp] theorem State.setV_diag (s : State) (x : Nibble) (b : Byte) : (s.setV x b).diag = s.diag := rfl

/-! ### After a flag write -/

@[simp] theorem State.setVF_i (s : State) (b : Byte) : (s.setVF b).i = s.i := rfl
@[simp] theorem State.setVF_pc (s : State) (b : Byte) : (s.setVF b).pc = s.pc := rfl
@[simp] theorem State.setVF_stack (s : State) (b : Byte) : (s.setVF b).stack = s.stack := rfl
@[simp] theorem State.setVF_sp (s : State) (b : Byte) : (s.setVF b).sp = s.sp := rfl
@[simp] theorem State.setVF_dt (s : State) (b : Byte) : (s.setVF b).dt = s.dt := rfl
@[simp] theorem State.setVF_st (s : State) (b : Byte) : (s.setVF b).st = s.st := rfl
@[simp] theorem State.setVF_disp (s : State) (b : Byte) : (s.setVF b).disp = s.disp := rfl
@[simp] theorem State.setVF_dirty (s : State) (b : Byte) : (s.setVF b).dirty = s.dirty := rfl
@[simp] theorem State.setVF_halt (s : State) (b : Byte) : (s.setVF b).halt = s.halt := rfl
@[simp] theorem State.setVF_mem (s : State) (b : Byte) : (s.setVF b).mem = s.mem := rfl
@[simp] theorem State.setVF_host (s : State) (b : Byte) : (s.setVF b).host = s.host := rfl
@[simp] theorem State.setVF_opNo (s : State) (b : Byte) : (s.setVF b).opNo = s.opNo := rfl
@[simp] theorem State.setVF_diag (s : State) (b : Byte) : (s.setVF b).diag = s.diag := rfl

/-! ### After raising a fatal condition -/

@[simp] theorem State.raise_v (s : State) (c : FatalCondition) : (s.raise c).v = s.v := rfl
@[simp] theorem State.raise_i (s : State) (c : FatalCondition) : (s.raise c).i = s.i := rfl
@[simp] theorem State.raise_pc (s : State) (c : FatalCondition) : (s.raise c).pc = s.pc := rfl
@[simp] theorem State.raise_stack (s : State) (c : FatalCondition) : (s.raise c).stack = s.stack := rfl
@[simp] theorem State.raise_sp (s : State) (c : FatalCondition) : (s.raise c).sp = s.sp := rfl
@[simp] theorem State.raise_dt (s : State) (c : FatalCondition) : (s.raise c).dt = s.dt := rfl
@[simp] theorem State.raise_st (s : State) (c : FatalCondition) : (s.raise c).st = s.st := rfl
@[simp] theorem State.raise_disp (s : State) (c : FatalCondition) : (s.raise c).disp = s.disp := rfl
@[simp] theorem State.raise_dirty (s : State) (c : FatalCondition) : (s.raise c).dirty = s.dirty := rfl
@[simp] theorem State.raise_halt (s : State) (c : FatalCondition) : (s.raise c).halt = .halted (.fatal c) := rfl
@[simp] theorem State.raise_mem (s : State) (c : FatalCondition) : (s.raise c).mem = s.mem := rfl
@[simp] theorem State.raise_host (s : State) (c : FatalCondition) : (s.raise c).host = s.host := rfl
@[simp] theorem State.raise_opNo (s : State) (c : FatalCondition) : (s.raise c).opNo = s.opNo := rfl
@[simp] theorem State.raise_diag (s : State) (c : FatalCondition) : (s.raise c).diag = s.diag := rfl
@[simp] theorem State.raise_getV (s : State) (c : FatalCondition) (r : Nibble) : (s.raise c).getV r = s.getV r := rfl

/-! ### After the end of a host operation -/

@[simp] theorem State.endOp_v (s : State) : (s.endOp).v = s.v := rfl
@[simp] theorem State.endOp_i (s : State) : (s.endOp).i = s.i := rfl
@[simp] theorem State.endOp_pc (s : State) : (s.endOp).pc = s.pc := rfl
@[simp] theorem State.endOp_stack (s : State) : (s.endOp).stack = s.stack := rfl
@[simp] theorem State.endOp_sp (s : State) : (s.endOp).sp = s.sp := rfl
@[simp] theorem State.endOp_dt (s : State) : (s.endOp).dt = s.dt := rfl
@[simp] theorem State.endOp_st (s : State) : (s.endOp).st = s.st := rfl
@[simp] theorem State.endOp_disp (s : State) : (s.endOp).disp = s.disp := rfl
@[simp] theorem State.endOp_dirty (s : State) : (s.endOp).dirty = s.dirty := rfl
@[simp] theorem State.endOp_halt (s : State) : (s.endOp).halt = s.halt := rfl
@[simp] theorem State.endOp_mem (s : State) : (s.endOp).mem = s.mem := rfl
@[simp] theorem State.endOp_host (s : State) : (s.endOp).host = s.host.tail := rfl
@[simp] theorem State.endOp_opNo (s : State) : (s.endOp).opNo = s.opNo + 1 := rfl
@[simp] theorem State.endOp_diag (s : State) : (s.endOp).diag = s.diag := rfl
@[simp] theorem State.endOp_getV (s : State) (r : Nibble) : (s.endOp).getV r = s.getV r := rfl

/-! ### After the end of a STEP -/

@[simp] theorem State.endStep_v (s : State) (d : Option Diagnostic) : (s.endStep d).v = s.v := rfl
@[simp] theorem State.endStep_i (s : State) (d : Option Diagnostic) : (s.endStep d).i = s.i := rfl
@[simp] theorem State.endStep_pc (s : State) (d : Option Diagnostic) : (s.endStep d).pc = s.pc := rfl
@[simp] theorem State.endStep_stack (s : State) (d : Option Diagnostic) : (s.endStep d).stack = s.stack := rfl
@[simp] theorem State.endStep_sp (s : State) (d : Option Diagnostic) : (s.endStep d).sp = s.sp := rfl
@[simp] theorem State.endStep_dt (s : State) (d : Option Diagnostic) : (s.endStep d).dt = s.dt := rfl
@[simp] theorem State.endStep_st (s : State) (d : Option Diagnostic) : (s.endStep d).st = s.st := rfl
@[simp] theorem State.endStep_disp (s : State) (d : Option Diagnostic) : (s.endStep d).disp = s.disp := rfl
@[simp] theorem State.endStep_dirty (s : State) (d : Option Diagnostic) : (s.endStep d).dirty = s.dirty := rfl
@[simp] theorem State.endStep_halt (s : State) (d : Option Diagnostic) : (s.endStep d).halt = s.halt := rfl
@[simp] theorem State.endStep_mem (s : State) (d : Option Diagnostic) : (s.endStep d).mem = s.mem := rfl
@[simp] theorem State.endStep_host (s : State) (d : Option Diagnostic) : (s.endStep d).host = s.host.tail := rfl
@[simp] theorem State.endStep_opNo (s : State) (d : Option Diagnostic) : (s.endStep d).opNo = s.opNo + 1 := rfl
@[simp] theorem State.endStep_diag (s : State) (d : Option Diagnostic) : (s.endStep d).diag = d := rfl
@[simp] theorem State.endStep_getV (s : State) (d : Option Diagnostic) (r : Nibble) : (s.endStep d).getV r = s.getV r := rfl

/-! ### After TICK -/

@[simp] theorem State.tick_v (s : State) : (s.tick).v = s.v := rfl
@[simp] theorem State.tick_i (s : State) : (s.tick).i = s.i := rfl
@[simp] theorem State.tick_pc (s : State) : (s.tick).pc = s.pc := rfl
@[simp] theorem State.tick_stack (s : State) : (s.tick).stack = s.stack := rfl
@[simp] theorem State.tick_sp (s : State) : (s.tick).sp = s.sp := rfl
@[simp] theorem State.tick_disp (s : State) : (s.tick).disp = s.disp := rfl
@[simp] theorem State.tick_dirty (s : State) : (s.tick).dirty = s.dirty := rfl
@[simp] theorem State.tick_halt (s : State) : (s.tick).halt = s.halt := rfl
@[simp] theorem State.tick_mem (s : State) : (s.tick).mem = s.mem := rfl
@[simp] theorem State.tick_host (s : State) : (s.tick).host = s.host := rfl
@[simp] theorem State.tick_opNo (s : State) : (s.tick).opNo = s.opNo := rfl
@[simp] theorem State.tick_diag (s : State) : (s.tick).diag = s.diag := rfl
@[simp] theorem State.tick_getV (s : State) (r : Nibble) : (s.tick).getV r = s.getV r := rfl

/-! ### The parameters as numbers -/

@[simp] theorem memSize_eq : Config.memSize = 4096 := rfl
@[simp] theorem progBase_eq : Config.progBase = 0x200 := rfl
@[simp] theorem progMax_eq : Config.progMax = 3584 := rfl
@[simp] theorem fontBase_eq : Config.fontBase = 0x050 := rfl
@[simp] theorem fontEnd_eq : Config.fontEnd = 0x09F := rfl

/-! ### The values at reset the source itself states -/

@[simp] theorem reset_pc : State.reset.pc = 0x0200#16 := rfl
@[simp] theorem reset_mem : State.reset.mem = [] := rfl
@[simp] theorem reset_halt : State.reset.halt = .running := rfl

/-! ### A skip -/

theorem State.skipIf_eq (s : State) (taken : Bool) :
    s.skipIf taken = s.jump (if taken then s.pc + 2#16 else s.pc) := by
  cases taken <;> rfl

@[simp] theorem State.jump_self (s : State) : s.jump s.pc = s := rfl

@[simp] theorem State.jump_jump (s : State) (a b : Word) : (s.jump a).jump b = s.jump b := rfl

theorem State.advance_eq_jump (s : State) : s.advance = s.jump (s.pc + 2#16) := rfl

/-- A skip is a write of PC: npc + 2 when taken, npc when not (40 R109). -/
theorem skipWhen_eq (taken : Bool) (s : State) :
    skipWhen taken s = s.jump (if taken then s.pc + 2#16 + 2#16 else s.pc + 2#16) := by
  cases taken <;> rfl

end Sys2Proof.Machine
end

