-- ==== Sys2Proof/Laws/Display.lean ====
section
/-! SUPPORT. The laws of drawing: what the loop of spec/43_display.md R172 does to each cell, to the collision flag and to
DIRTY. Each cell is touched at most once, so the order of the loops does not matter (corner case e). -/

namespace Sys2Proof.Machine

theorem Display.cell_out (d : Display) {r c : Nat} (h : ¬ (r < 32 ∧ c < 64)) : d.cell r c = false := by
  simp [Display.cell, h]

theorem Display.cell_setCell (d : Display) {r c : Nat} (h : r < 32 ∧ c < 64) (b : Bool) (r' c' : Nat) :
    (d.setCell r c b).cell r' c' = if r' = r ∧ c' = c then b else d.cell r' c' := by
  by_cases h' : r' < 32 ∧ c' < 64
  · simp only [Display.cell, Display.setCell, dif_pos h, dif_pos h']
    by_cases hr : r' = r
    · subst hr
      by_cases hc : c' = c
      · subst hc; simp
      · have hc' : c ≠ c' := fun e => hc e.symm
        simp [hc, hc']
    · have hr' : r ≠ r' := fun e => hr e.symm
      simp [hr, hr']
  · rw [Display.cell_out _ h', Display.cell_out _ h', if_neg]
    rintro ⟨rfl, rfl⟩; exact h' h

@[simp] theorem Display.cell_blank (r c : Nat) : Display.blank.cell r c = false := by
  simp [Display.cell, Display.blank]

/-- Two displays with the same cells are the same. -/
theorem Display.ext_cell {d e : Display} (h : ∀ r c, d.cell r c = e.cell r c) : d = e := by
  ext r hr c hc
  have := h r c
  simpa [Display.cell, hr, hc] using this

/-- What a draw has done when it has toggled the cells of `P`, none twice: from canvas `c` to canvas `c'`. -/
structure Toggled (P : Nat → Nat → Prop) (c c' : Canvas) : Prop where
  on : ∀ r k, P r k → c'.disp.cell r k = !c.disp.cell r k
  off : ∀ r k, ¬ P r k → c'.disp.cell r k = c.disp.cell r k
  hit : c'.hit = true ↔ c.hit = true ∨ ∃ r k, P r k ∧ c.disp.cell r k = true
  dirty : c'.dirty = true ↔ c.dirty = true ∨ ∃ r k, P r k

theorem Toggled.congr {P Q : Nat → Nat → Prop} {c c' : Canvas} (h : Toggled P c c') (e : ∀ r k, P r k ↔ Q r k) :
    Toggled Q c c' := by
  have : P = Q := by funext r k; exact propext (e r k)
  exact this ▸ h

theorem Toggled.refl (c : Canvas) : Toggled (fun _ _ => False) c c :=
  ⟨by simp, by simp, by simp, by simp⟩

/-- Toggling disjoint sets of cells one after the other toggles their union. -/
theorem Toggled.trans {P Q : Nat → Nat → Prop} {a b c : Canvas} (h1 : Toggled P a b) (h2 : Toggled Q b c)
    (hd : ∀ r k, P r k → ¬ Q r k) : Toggled (fun r k => P r k ∨ Q r k) a c where
  on r k h := by
    rcases h with h | h
    · rw [h2.off r k (hd r k h), h1.on r k h]
    · rw [h2.on r k h, h1.off r k (fun hp => hd r k hp h)]
  off r k h := by
    rw [h2.off r k (fun hq => h (.inr hq)), h1.off r k (fun hp => h (.inl hp))]
  hit := by
    rw [h2.hit, h1.hit]
    constructor
    · rintro ((h | ⟨r, k, hp, hc⟩) | ⟨r, k, hq, hc⟩)
      · exact .inl h
      · exact .inr ⟨r, k, .inl hp, hc⟩
      · exact .inr ⟨r, k, .inr hq, by rwa [h1.off r k (fun hp => hd r k hp hq)] at hc⟩
    · rintro (h | ⟨r, k, hp | hq, hc⟩)
      · exact .inl (.inl h)
      · exact .inl (.inr ⟨r, k, hp, hc⟩)
      · exact .inr ⟨r, k, hq, by rwa [h1.off r k (fun hp => hd r k hp hq)]⟩
  dirty := by
    rw [h2.dirty, h1.dirty]
    constructor
    · rintro ((h | ⟨r, k, hp⟩) | ⟨r, k, hq⟩)
      · exact .inl h
      · exact .inr ⟨r, k, .inl hp⟩
      · exact .inr ⟨r, k, .inr hq⟩
    · rintro (h | ⟨r, k, hp | hq⟩)
      · exact .inl (.inl h)
      · exact .inl (.inr ⟨r, k, hp⟩)
      · exact .inr ⟨r, k, hq⟩

/-- One set sprite bit toggles the cell it falls on, if there is one. -/
theorem plot_toggled (row col : Nat) (c : Canvas) :
    Toggled (fun r k => r < 32 ∧ k < 64 ∧ r = row ∧ k = col) c (plot row col c) := by
  unfold plot
  by_cases h : row < 32 ∧ col < 64
  · rw [if_pos h]
    refine ⟨?_, ?_, ?_, ?_⟩
    · rintro r k ⟨_, _, rfl, rfl⟩
      simp [Display.cell_setCell _ h]
    · intro r k hn
      simp only [Display.cell_setCell _ h]
      rw [if_neg]
      rintro ⟨rfl, rfl⟩; exact hn ⟨h.1, h.2, rfl, rfl⟩
    · simp only [Bool.or_eq_true]
      constructor
      · rintro (h' | h')
        · exact .inl h'
        · exact .inr ⟨row, col, ⟨h.1, h.2, rfl, rfl⟩, h'⟩
      · rintro (h' | ⟨r, k, ⟨_, _, rfl, rfl⟩, h'⟩)
        · exact .inl h'
        · exact .inr h'
    · simp only [true_iff]
      exact .inr ⟨row, col, h.1, h.2, rfl, rfl⟩
  · rw [if_neg h]
    refine (Toggled.refl c).congr fun r k => ⟨False.elim, ?_⟩
    rintro ⟨h1, h2, rfl, rfl⟩; exact h ⟨h1, h2⟩

/-- A row of distinct sprite columns. -/
theorem foldl_plot_toggled (p : Nat → Bool) (x0 row : Nat) (ks : List Nat) : ks.Nodup → ∀ c : Canvas,
    Toggled (fun r k => r < 32 ∧ k < 64 ∧ r = row ∧ ∃ j ∈ ks, p j = true ∧ k = x0 + j) c
      (ks.foldl (fun c j => if p j then plot row (x0 + j) c else c) c) := by
  induction ks with
  | nil => intro _ c; exact (Toggled.refl c).congr (by simp)
  | cons j ks ih =>
    intro hn c
    rw [List.nodup_cons] at hn
    rw [List.foldl_cons]
    by_cases hp : p j = true
    · rw [if_pos hp]
      refine ((plot_toggled row (x0 + j) c).trans (ih hn.2 _) ?_).congr ?_
      · rintro r k ⟨_, _, _, rfl⟩ ⟨_, _, _, i, hi, _, e⟩
        exact hn.1 (by rwa [show j = i by omega])
      · intro r k
        constructor
        · rintro (⟨h1, h2, h3, h4⟩ | ⟨h1, h2, h3, i, hi, h4, h5⟩)
          · exact ⟨h1, h2, h3, j, by simp, hp, h4⟩
          · exact ⟨h1, h2, h3, i, by simp [hi], h4, h5⟩
        · rintro ⟨h1, h2, h3, i, hi, h4, h5⟩
          rcases List.mem_cons.1 hi with rfl | hi
          · exact .inl ⟨h1, h2, h3, h5⟩
          · exact .inr ⟨h1, h2, h3, i, hi, h4, h5⟩
    · rw [if_neg hp]
      refine (ih hn.2 c).congr fun r k => ?_
      constructor
      · rintro ⟨h1, h2, h3, i, hi, h4, h5⟩; exact ⟨h1, h2, h3, i, by simp [hi], h4, h5⟩
      · rintro ⟨h1, h2, h3, i, hi, h4, h5⟩
        rcases List.mem_cons.1 hi with rfl | hi
        · exact absurd h4 hp
        · exact ⟨h1, h2, h3, i, hi, h4, h5⟩

theorem spriteCovers_nil (x0 y0 r k : Nat) : spriteCovers [] x0 y0 r k = false := by simp [spriteCovers]

theorem spriteCovers_cons (b : Byte) (bs : List Byte) (x0 y0 r k : Nat) :
    spriteCovers (b :: bs) x0 y0 r k = true ↔
      (r = y0 ∧ ∃ j ∈ List.range 8, b.getLsbD (7 - j) = true ∧ k = x0 + j) ∨
        spriteCovers bs x0 (y0 + 1) r k = true := by
  unfold spriteCovers
  by_cases hr : r = y0
  · subst hr
    rw [if_neg (c := r + 1 ≤ r ∧ _) (by omega)]
    by_cases hk : x0 ≤ k ∧ k < x0 + 8
    · rw [if_pos ⟨le_refl _, hk.1, hk.2⟩]
      simp only [Nat.sub_self, List.getElem?_cons_zero, Option.getD_some, true_and, List.mem_range]
      constructor
      · intro h; exact .inl ⟨k - x0, by omega, h, by omega⟩
      · rintro (⟨j, hj, hb, rfl⟩ | h)
        · simpa using hb
        · exact absurd h (by simp)
    · rw [if_neg (by omega)]
      simp only [List.mem_range]
      constructor
      · intro h; exact absurd h (by simp)
      · rintro (⟨_, j, hj, _, rfl⟩ | h)
        · omega
        · exact absurd h (by simp)
  · by_cases h : y0 ≤ r ∧ x0 ≤ k ∧ k < x0 + 8
    · rw [if_pos h, if_pos ⟨by omega, h.2.1, h.2.2⟩, show r - y0 = (r - (y0 + 1)) + 1 by omega,
        List.getElem?_cons_succ]
      simp [hr]
    · rw [if_neg h, if_neg (by omega)]
      simp [hr]

/-- Everything a draw does: it toggles exactly the cells of the grid the sprite covers (43 R172). -/
theorem drawRows_toggled (rows : List Byte) : ∀ (x0 y0 : Nat) (c : Canvas),
    Toggled (fun r k => r < 32 ∧ k < 64 ∧ spriteCovers rows x0 y0 r k = true) c (drawRows rows x0 y0 c) := by
  induction rows with
  | nil => intro x0 y0 c; exact (Toggled.refl c).congr (by simp [spriteCovers_nil])
  | cons b bs ih =>
    intro x0 y0 c
    refine ((foldl_plot_toggled (fun j => b.getLsbD (7 - j)) x0 y0 (List.range 8) List.nodup_range c).trans
      (ih x0 (y0 + 1) (drawRow b x0 y0 c)) ?_).congr ?_
    · rintro r k ⟨_, _, rfl, _⟩ ⟨_, _, h⟩
      unfold spriteCovers at h
      rw [if_neg (by omega)] at h
      exact absurd h (by simp)
    · intro r k
      rw [spriteCovers_cons, and_or_left, and_or_left]

/-- The cells after a draw: each cell the sprite covers toggles, every other is as before. -/
theorem drawRows_cell (rows : List Byte) (x0 y0 : Nat) (c : Canvas) {r k : Nat} (hr : r < 32) (hk : k < 64) :
    (drawRows rows x0 y0 c).disp.cell r k = (c.disp.cell r k ^^ spriteCovers rows x0 y0 r k) := by
  have h := drawRows_toggled rows x0 y0 c
  by_cases hs : spriteCovers rows x0 y0 r k = true
  · rw [h.on r k ⟨hr, hk, hs⟩, hs]; simp
  · rw [h.off r k (fun h => hs h.2.2)]; simp [hs]

end Sys2Proof.Machine
end

