-- ==== Sys2Proof/Laws/Memory.lean ====
section
/-! SUPPORT. The laws of memory (spec/20_memory.md): read after write, the canonical form kept by every operation, and
the range check (60_exceptions.md R202). -/

namespace Sys2Proof.Machine

theorem Memory.read_cons (a : Nat) (b : Byte) (rest : Memory) (c : Nat)
    (hrest : Memory.read rest a = resetByte a) :
    Memory.read (Memory.cons a b rest) c = if a = c then b else Memory.read rest c := by
  unfold Memory.cons
  split
  · next h => by_cases hc : a = c
              · subst hc; simp [hrest, h]
              · simp [hc]
  · rfl

/-- An address below every listed one is unlisted. -/
theorem Memory.read_of_all_gt (m : Memory) (a : Nat) (h : ∀ c ∈ m, a < c.1) : Memory.read m a = resetByte a := by
  induction m with
  | nil => rfl
  | cons p rest ih =>
    have h1 := h p (by simp)
    simp only [Memory.read]
    rw [if_neg (by omega), ih (fun c hc => h c (by simp [hc]))]

theorem Memory.wf_cons_iff (a : Nat) (b : Byte) (rest : Memory) :
    Memory.wf ((a, b) :: rest) = true ↔
      a < 4096 ∧ b ≠ resetByte a ∧ (∀ c ∈ rest, a < c.1) ∧ Memory.wf rest = true := by
  simp [Memory.wf, and_assoc]

theorem Memory.mem_cons {a : Nat} {b : Byte} {rest : Memory} {c : Host.Cell} (h : c ∈ Memory.cons a b rest) :
    c.1 = a ∨ c ∈ rest := by
  unfold Memory.cons at h
  split at h
  · exact .inr h
  · rcases List.mem_cons.1 h with rfl | h
    · exact .inl rfl
    · exact .inr h

theorem Memory.mem_insert {a : Nat} {b : Byte} {m : Memory} {c : Host.Cell} (h : c ∈ Memory.insert a b m) :
    c.1 = a ∨ c ∈ m := by
  induction m with
  | nil => exact Memory.mem_cons h
  | cons p rest ih =>
    unfold Memory.insert at h
    split at h
    · exact Memory.mem_cons h
    · split at h
      · rcases Memory.mem_cons h with h | h
        · exact .inl h
        · exact .inr (by simp [h])
      · rcases List.mem_cons.1 h with rfl | h
        · exact .inr (by simp)
        · rcases ih h with h | h
          · exact .inl h
          · exact .inr (by simp [h])

theorem Memory.wf_cons {a : Nat} {b : Byte} {rest : Memory} (ha : a < 4096) (hlt : ∀ c ∈ rest, a < c.1)
    (hr : Memory.wf rest = true) : Memory.wf (Memory.cons a b rest) = true := by
  unfold Memory.cons
  split
  · exact hr
  · next h => exact (Memory.wf_cons_iff a b rest).2 ⟨ha, h, hlt, hr⟩

theorem Memory.wf_insert {a : Nat} {b : Byte} {m : Memory} (ha : a < 4096) (hm : Memory.wf m = true) :
    Memory.wf (Memory.insert a b m) = true := by
  induction m with
  | nil => exact Memory.wf_cons ha (by simp) rfl
  | cons p rest ih =>
    obtain ⟨a', b'⟩ := p
    have hm' := (Memory.wf_cons_iff a' b' rest).1 hm
    unfold Memory.insert
    split
    · next h =>
      refine Memory.wf_cons ha ?_ hm
      intro c hc
      rcases List.mem_cons.1 hc with rfl | hc
      · exact h
      · exact Nat.lt_trans h (hm'.2.2.1 c hc)
    · next h =>
      split
      · next e => subst e; exact Memory.wf_cons ha hm'.2.2.1 hm'.2.2.2
      · next e =>
        refine (Memory.wf_cons_iff a' b' _).2 ⟨hm'.1, hm'.2.1, ?_, ih hm'.2.2.2⟩
        intro c hc
        rcases Memory.mem_insert hc with h' | h'
        · omega
        · exact hm'.2.2.1 c h'

/-- Every write keeps the canonical form. -/
theorem Memory.wf_write {m : Memory} (a : Nat) (b : Byte) (hm : Memory.wf m = true) :
    Memory.wf (Memory.write m a b) = true := by
  unfold Memory.write
  split
  · next h => exact Memory.wf_insert h hm
  · exact hm

theorem Memory.wf_writeBytes (bs : List Byte) : ∀ {m : Memory} (a : Nat), Memory.wf m = true →
    Memory.wf (Memory.writeBytes m a bs) = true := by
  induction bs with
  | nil => intro m a h; exact h
  | cons b bs ih => intro m a h; exact ih (a + 1) (Memory.wf_write a b h)

/-- Memory after RESET is in the canonical form: with nothing listed, and after loading any image (70 R241). -/
theorem Memory.wf_reset : State.reset.mem.wf = true := rfl

theorem wf_loadImage (image : List Byte) : Memory.wf (loadImage image) = true :=
  Memory.wf_writeBytes image Config.progBase rfl

/-- Placing a word keeps the canonical form. -/
theorem placeWord_wf {s : State} (w : Word) (h : s.mem.wf = true) : (placeWord s w).mem.wf = true :=
  Memory.wf_writeBytes _ _ h

theorem Memory.read_insert {a : Nat} {b : Byte} {m : Memory} (hm : Memory.wf m = true) (c : Nat) :
    Memory.read (Memory.insert a b m) c = if a = c then b else Memory.read m c := by
  induction m with
  | nil => exact Memory.read_cons a b [] c rfl
  | cons p rest ih =>
    obtain ⟨a', b'⟩ := p
    have hm' := (Memory.wf_cons_iff a' b' rest).1 hm
    unfold Memory.insert
    split
    · next h =>
      refine Memory.read_cons a b _ c (Memory.read_of_all_gt _ _ ?_)
      intro d hd
      rcases List.mem_cons.1 hd with rfl | hd
      · exact h
      · exact Nat.lt_trans h (hm'.2.2.1 d hd)
    · split
      · next e =>
        subst e
        rw [Memory.read_cons a b _ c (Memory.read_of_all_gt _ _ hm'.2.2.1)]
        by_cases hc : a = c <;> simp [Memory.read, hc]
      · next h e =>
        simp only [Memory.read]
        rw [ih hm'.2.2.2]
        by_cases h1 : a' = c
        · rw [if_pos h1, if_pos h1, if_neg (by omega)]
        · simp [h1]

/-- A read after a write: the byte written at that address, every other byte as it was (20 R56). -/
theorem Memory.read_write {m : Memory} (hm : Memory.wf m = true) {a : Nat} (ha : a < 4096) (b : Byte) (c : Nat) :
    Memory.read (Memory.write m a b) c = if a = c then b else Memory.read m c := by
  unfold Memory.write
  rw [if_pos ha, Memory.read_insert hm]

/-- A read after a block write that stays below 4096. -/
theorem Memory.read_writeBytes (bs : List Byte) : ∀ {m : Memory} (a c : Nat), Memory.wf m = true →
    a + bs.length ≤ 4096 → Memory.read (Memory.writeBytes m a bs) c =
      if a ≤ c ∧ c < a + bs.length then (bs[c - a]?).getD 0#8 else Memory.read m c := by
  induction bs with
  | nil => intro m a c _ _; rw [Memory.writeBytes, if_neg (by simp only [List.length_nil]; omega)]
  | cons b bs ih =>
    intro m a c hm h
    simp only [List.length_cons] at h
    rw [Memory.writeBytes, ih (a + 1) c (Memory.wf_write a b hm) (by omega), Memory.read_write hm (by omega)]
    rw [List.length_cons]
    by_cases h1 : a = c
    · subst h1; rw [if_neg (by omega), if_pos rfl, if_pos (by omega)]; simp
    · rw [if_neg h1]
      by_cases h2 : a + 1 ≤ c ∧ c < a + 1 + bs.length
      · rw [if_pos h2, if_pos (by omega), show c - a = (c - (a + 1)) + 1 by omega, List.getElem?_cons_succ]
      · rw [if_neg h2, if_neg (by omega)]

@[simp] theorem Memory.readBytes_length (m : Memory) (a n : Nat) : (Memory.readBytes m a n).length = n := by
  simp [Memory.readBytes]

theorem Memory.readBytes_getElem? (m : Memory) (a : Nat) {n k : Nat} (h : k < n) :
    (Memory.readBytes m a n)[k]? = some (Memory.read m (a + k)) := by
  simp [Memory.readBytes, h]

/-! ### The range check -/

theorem firstOutOfRange_eq_none_iff (base len : Nat) :
    firstOutOfRange base len = none ↔ ∀ k < len, base + k < 4096 := by
  simp [firstOutOfRange, List.find?_eq_none]

/-- The access is in range when it is empty or ends below 4096 (60 R202). -/
theorem firstOutOfRange_none {base len : Nat} (h : len = 0 ∨ base + len ≤ 4096) : firstOutOfRange base len = none := by
  rw [firstOutOfRange_eq_none_iff]; intro k hk; omega

/-- Out of range, the address reported is the lowest one at or above 4096 (60 R202, R208). -/
theorem firstOutOfRange_some {base len : Nat} (h0 : 0 < len) (h : 4096 < base + len) :
    firstOutOfRange base len = some (max base 4096) := by
  unfold firstOutOfRange
  have e : (List.range len) = List.range (4096 - base) ++ (4096 - base) ::
      (List.range (len - (4096 - base) - 1)).map (fun k => k + (4096 - base + 1)) := by
    apply List.ext_getElem?
    intro k
    by_cases h1 : k < 4096 - base
    · rw [List.getElem?_append_left (by simpa using h1)]
      simp [List.getElem?_range h1, List.getElem?_range (show k < len by omega)]
    · rw [List.getElem?_append_right (by simpa using Nat.le_of_not_lt h1)]
      simp only [List.length_range]
      by_cases h2 : k = 4096 - base
      · subst h2; simp [List.getElem?_range (show 4096 - base < len by omega)]
      · obtain ⟨j, hj⟩ : ∃ j, k - (4096 - base) = j + 1 := ⟨k - (4096 - base) - 1, by omega⟩
        rw [hj, List.getElem?_cons_succ]
        by_cases h3 : k < len
        · rw [List.getElem?_range h3]
          rw [List.getElem?_map, List.getElem?_range (by omega)]
          simp; omega
        · rw [List.getElem?_eq_none (by simpa using h3), List.getElem?_map, List.getElem?_eq_none (by simp; omega)]
          rfl
  rw [e, List.map_append, List.find?_append, List.map_cons]
  have hn : List.find? (fun a => decide (Config.memSize ≤ a))
      (List.map (fun k => base + k) (List.range (4096 - base))) = none := by
    simp only [List.find?_eq_none, List.mem_map, List.mem_range, decide_eq_true_eq, memSize_eq]
    rintro _ ⟨k, hk, rfl⟩; omega
  rw [hn, List.find?_cons_of_pos (by simp only [decide_eq_true_eq, memSize_eq]; omega), Option.none_or]
  exact congrArg some (by omega)

/-- Out of range means: not empty, and past 0xFFF (60 R202). -/
theorem firstOutOfRange_eq (base len : Nat) :
    firstOutOfRange base len = if 0 < len ∧ 4096 < base + len then some (max base 4096) else none := by
  split
  · next h => exact firstOutOfRange_some h.1 h.2
  · next h => exact firstOutOfRange_none (by omega)

/-- Everything a checked access can do: the access, where every address is below 4096, else the condition (60 R209). -/
theorem State.checked_eq (s : State) (base len : Nat) (access : State) :
    s.checked base len access =
      if 0 < len ∧ 4096 < base + len then s.raise (.addressOutOfRange (max base 4096)) else access := by
  unfold State.checked
  rw [firstOutOfRange_eq]
  by_cases h : 0 < len ∧ 4096 < base + len
  · rw [if_pos h, if_pos h]
  · rw [if_neg h, if_neg h]

end Sys2Proof.Machine
end

