-- ==== Sys2Proof/Laws/Registers.lean ====
section
/-! SUPPORT. Reading and writing general registers, one at a time and in blocks (spec/00_scope.md R8, 42_index_memory.md
R155, R156). -/

namespace Sys2Proof.Machine

@[simp] theorem State.getV_setV_same (s : State) (x : Nibble) (b : Byte) : (s.setV x b).getV x = b := by
  simp [State.getV, State.setV]

theorem State.getV_setV_ne (s : State) {x r : Nibble} (b : Byte) (h : r ≠ x) : (s.setV x b).getV r = s.getV r := by
  have h' : x.toNat ≠ r.toNat := fun e => h (BitVec.eq_of_toNat_eq e.symm)
  simp [State.getV, State.setV, h']

theorem State.getV_setV (s : State) (x r : Nibble) (b : Byte) :
    (s.setV x b).getV r = if r = x then b else s.getV r := by
  by_cases h : r = x
  · subst h; simp
  · simp [State.getV_setV_ne _ _ h, h]

theorem State.getV_setVF (s : State) (r : Nibble) (b : Byte) :
    (s.setVF b).getV r = if r = 15#4 then b else s.getV r := State.getV_setV s 15#4 r b

@[simp] theorem State.getV_setVF_same (s : State) (b : Byte) : (s.setVF b).getV 15#4 = b :=
  State.getV_setV_same s 15#4 b

/-- A block of registers after a block load: the registers the block covers take its bytes (42 R156). -/
theorem getV_setVs (bs : List Byte) : ∀ (k : Nat) (s : State) (r : Nibble), k + bs.length ≤ 16 →
    (setVs k bs s).getV r =
      if k ≤ r.toNat ∧ r.toNat < k + bs.length then (bs[r.toNat - k]?).getD 0#8 else s.getV r := by
  induction bs with
  | nil => intro k s r _; rw [setVs, if_neg (by simp only [List.length_nil]; omega)]
  | cons b bs ih =>
    intro k s r hk
    simp only [List.length_cons] at hk
    have hr : r = BitVec.ofNat 4 k ↔ r.toNat = k := by
      constructor
      · rintro rfl; simp only [BitVec.toNat_ofNat]; omega
      · intro h; apply BitVec.eq_of_toNat_eq; simp only [BitVec.toNat_ofNat]; omega
    rw [setVs, ih (k + 1) _ r (by omega), State.getV_setV, List.length_cons]
    by_cases h1 : r.toNat = k
    · rw [if_neg (by omega), if_pos (hr.2 h1), if_pos (by omega), h1]; simp
    · rw [if_neg (fun h => h1 (hr.1 h))]
      by_cases h2 : k + 1 ≤ r.toNat ∧ r.toNat < k + 1 + bs.length
      · rw [if_pos h2, if_pos (by omega), show r.toNat - k = (r.toNat - (k + 1)) + 1 by omega,
          List.getElem?_cons_succ]
      · rw [if_neg h2, if_neg (by omega)]

/-- A block load writes registers and nothing else. -/
theorem setVs_eq (bs : List Byte) : ∀ (k : Nat) (s : State), ∃ w, setVs k bs s = { s with v := w } := by
  induction bs with
  | nil => intro k s; exact ⟨s.v, rfl⟩
  | cons b bs ih =>
    intro k s
    obtain ⟨w, hw⟩ := ih (k + 1) (s.setV (BitVec.ofNat 4 k) b)
    exact ⟨w, by rw [setVs, hw]; rfl⟩

@[simp] theorem getVs_length (s : State) (n : Nat) : (getVs s n).length = n := by simp [getVs]

theorem getVs_getElem? (s : State) {n k : Nat} (h : k < n) : (getVs s n)[k]? = some (s.getV (BitVec.ofNat 4 k)) := by
  simp [getVs, h]

end Sys2Proof.Machine
end

