-- ==== Sys2Proof/Laws/Stack.lean ====
section
/-! SUPPORT. Everything a push and a pop of the call stack can do (spec/10_state.md R27, R28). -/

namespace Sys2Proof.Machine

theorem State.push_full {s : State} (ret : Word) (h : s.sp.val = 16) : s.push ret = none := by
  simp [State.push, h]

/-- A push below capacity: depth up by one, the return address in the new top slot, everything else as it was. -/
theorem State.push_room {s : State} (ret : Word) (h : s.sp.val < 16) : ∃ t, s.push ret = some t ∧
    t.sp.val = s.sp.val + 1 ∧ t = { s with sp := t.sp, stack := t.stack } ∧
    ∀ k : Fin 16, t.stack[k] = if k.val = s.sp.val then ret else s.stack[k] := by
  refine ⟨_, dif_pos h, rfl, rfl, fun k => ?_⟩
  by_cases hk : k.val = s.sp.val
  · simp [hk]
  · have : s.sp.val ≠ k.val := fun e => hk e.symm
    simp [hk, this]

theorem State.push_cases {s t : State} {ret : Word} (h : s.push ret = some t) : s.sp.val < 16 ∧
    t.sp.val = s.sp.val + 1 ∧ t = { s with sp := t.sp, stack := t.stack } ∧
    ∀ k : Fin 16, t.stack[k] = if k.val = s.sp.val then ret else s.stack[k] := by
  by_cases hs : s.sp.val < 16
  · obtain ⟨u, hu, h1, h2, h3⟩ := State.push_room ret hs
    cases hu.symm.trans h
    exact ⟨hs, h1, h2, h3⟩
  · rw [State.push_full ret (by have := s.sp.isLt; omega)] at h
    cases h

theorem State.pop_empty {s : State} (h : s.sp.val = 0) : s.pop = none := by
  simp [State.pop, h]

/-- A pop above the bottom: the top slot's value, depth down by one, no slot changed. -/
theorem State.pop_some {s : State} (h : 0 < s.sp.val) : ∃ (k : Fin 16) (t : State), k.val = s.sp.val - 1 ∧
    s.pop = some (s.stack[k], t) ∧ t = { s with sp := t.sp } ∧ t.sp.val = s.sp.val - 1 := by
  refine ⟨⟨s.sp.val - 1, by have := s.sp.isLt; omega⟩, _, rfl, dif_pos h, rfl, rfl⟩

end Sys2Proof.Machine
end

