-- ==== Sys2Proof/Laws/Exec.lean ====
section
/-! SUPPORT. What the shapes of Operands.lean do, and exec's arms as equations (spec/30_encoding.md R75). -/

namespace Sys2Proof.Machine

/-! ### Frames of the shared shapes -/

theorem FrameBut.mono {ps qs : List Piece} {s t : State} (h : FrameBut ps s t) (hs : ∀ p ∈ ps, p ∈ qs) :
    FrameBut qs s t := fun p hp => h p (fun hm => hp (hs p hm))

/-- A register write touches that register and, by the fetch advance, PC. -/
theorem writeReg_frame (x : Nibble) (b : Byte) (s : State) : FrameBut [.reg x, .pc] s (writeReg x b s) := by
  intro p hp
  simp only [List.mem_cons, List.not_mem_nil, or_false, not_or] at hp
  cases p with
  | reg r => exact State.getV_setV_ne _ b (fun e => hp.1 (by rw [e]))
  | pc => exact absurd rfl hp.2
  | schedule => exact ⟨rfl, rfl⟩
  | _ => rfl

@[simp] theorem writeReg_getV (x r : Nibble) (b : Byte) (s : State) :
    (writeReg x b s).getV r = if r = x then b else s.getV r := State.getV_setV s.advance x r b

@[simp] theorem writeReg_pc (x : Nibble) (b : Byte) (s : State) : (writeReg x b s).pc = s.pc + 2#16 := rfl

/-- A result with a flag touches the destination, VF and PC. -/
theorem writeRegFlag_frame (x : Nibble) (b f : Byte) (s : State) :
    FrameBut [.reg x, .reg 15#4, .pc] s (writeRegFlag x b f s) := by
  intro p hp
  simp only [List.mem_cons, List.not_mem_nil, or_false, not_or] at hp
  cases p with
  | reg r =>
    show ((s.advance.setV x b).setVF f).getV r = s.getV r
    rw [State.getV_setVF, if_neg (fun e => hp.2.1 (by rw [e]))]
    exact State.getV_setV_ne _ b (fun e => hp.1 (by rw [e]))
  | pc => exact absurd rfl hp.2.2
  | schedule => exact ⟨rfl, rfl⟩
  | _ => rfl

@[simp] theorem writeRegFlag_getV (x r : Nibble) (b f : Byte) (s : State) :
    (writeRegFlag x b f s).getV r = if r = 15#4 then f else if r = x then b else s.getV r := by
  show ((s.advance.setV x b).setVF f).getV r = _
  rw [State.getV_setVF, State.getV_setV]; rfl

@[simp] theorem writeRegFlag_pc (x : Nibble) (b f : Byte) (s : State) :
    (writeRegFlag x b f s).pc = s.pc + 2#16 := rfl

/-- A write of PC touches PC only. -/
theorem jump_frame (s : State) (a : Word) : FrameBut [.pc] s (s.jump a) := by
  intro p hp
  cases p with
  | pc => exact absurd (List.mem_singleton.2 rfl) hp
  | schedule => exact ⟨rfl, rfl⟩
  | _ => rfl

/-- A skip touches PC only. -/
theorem skipWhen_frame (taken : Bool) (s : State) : FrameBut [.pc] s (skipWhen taken s) := by
  rw [skipWhen_eq]; exact jump_frame s _

/-- Raising a condition touches HALT only (60 R209). -/
theorem raise_frame (s : State) (c : FatalCondition) : FrameBut [.halt] s (s.raise c) := by
  intro p hp
  cases p with
  | halt => exact absurd (List.mem_singleton.2 rfl) hp
  | schedule => exact ⟨rfl, rfl⟩
  | _ => rfl

/-- The end of a STEP touches the diagnostic and the model's schedule only. -/
theorem endStep_frame (s : State) (d : Option Diagnostic) : FrameBut [.diag, .schedule] s (s.endStep d) := by
  intro p hp
  cases p with
  | diag => exact absurd (by simp) hp
  | schedule => exact absurd (by simp) hp
  | _ => rfl

/-! ### What the instructions that can halt do -/

/-- A checked access answers the condition, or the access (60 R209). -/
theorem checked_cases (s : State) (base len : Nat) (access : State) :
    (∃ a, s.checked base len access = s.raise (.addressOutOfRange a)) ∨ s.checked base len access = access := by
  rw [State.checked_eq]
  split
  · exact .inl ⟨_, rfl⟩
  · exact .inr rfl

/-- A skip on a key answers the condition, or a skip (44 R185, R186). -/
theorem skipOnKey_cases (x : Nibble) (down : Bool) (s : State) :
    (∃ b, skipOnKey x down s = s.raise (.keyIndexOutOfRange b)) ∨ ∃ taken, skipOnKey x down s = skipWhen taken s := by
  unfold skipOnKey
  split
  · exact .inl ⟨_, rfl⟩
  · exact .inr ⟨_, rfl⟩

/-- RET on an empty stack (40 R100). -/
theorem execRet_empty {s : State} (h : s.sp.val = 0) : execRet s = .next (s.raise .stackUnderflow) := by
  rw [execRet, State.pop_empty h]

/-- RET on a stack that is not empty: the top slot is read, the depth goes down by one (40 R100). -/
theorem execRet_some {s : State} {k : Fin 16} (h : s.sp.val = k.val + 1) :
    ∃ t : State, execRet s = .next (t.jump s.stack[k]) ∧ t = { s with sp := t.sp } ∧ t.sp.val = k.val := by
  obtain ⟨j, t, hj, hp, ht, hsp⟩ := State.pop_some (s := s) (by omega)
  obtain rfl : j = k := Fin.ext (by omega)
  exact ⟨t, by rw [execRet, hp], ht, by omega⟩

/-- CALL on a full stack (40 R102). -/
theorem execCall_full {s : State} (nnn : Addr12) (h : s.sp.val = 16) :
    execCall nnn s = .next (s.raise .stackOverflow) := by
  rw [execCall, State.push_full _ h]

/-- CALL below capacity: the return address is in the new top slot, the depth goes up by one (40 R102). -/
theorem execCall_room {s : State} (nnn : Addr12) (h : s.sp.val < 16) : ∃ t : State,
    execCall nnn s = .next (t.jump (zextAddr nnn)) ∧ t = { s with sp := t.sp, stack := t.stack } ∧
    t.sp.val = s.sp.val + 1 ∧ ∀ k : Fin 16, t.stack[k] = if k.val = s.sp.val then s.pc + 2#16 else s.stack[k] := by
  obtain ⟨t, hp, hsp, ht, hk⟩ := State.push_room s.advance.pc h
  exact ⟨t, by rw [execCall, hp], ht, hsp, hk⟩

/-! ### The arms of exec -/

theorem exec_cls (s : State) : exec .cls s = execCls s := rfl
theorem exec_ret (s : State) : exec .ret s = execRet s := rfl
theorem exec_jp (nnn : Addr12) (s : State) : exec (.jp nnn) s = execJp nnn s := rfl
theorem exec_call (nnn : Addr12) (s : State) : exec (.call nnn) s = execCall nnn s := rfl
theorem exec_seImm (x : Nibble) (nn : Byte) (s : State) : exec (.seImm x nn) s = execSeImm x nn s := rfl
theorem exec_sneImm (x : Nibble) (nn : Byte) (s : State) : exec (.sneImm x nn) s = execSneImm x nn s := rfl
theorem exec_seReg (x y : Nibble) (s : State) : exec (.seReg x y) s = execSeReg x y s := rfl
theorem exec_ldImm (x : Nibble) (nn : Byte) (s : State) : exec (.ldImm x nn) s = execLdImm x nn s := rfl
theorem exec_addImm (x : Nibble) (nn : Byte) (s : State) : exec (.addImm x nn) s = execAddImm x nn s := rfl
theorem exec_ldReg (x y : Nibble) (s : State) : exec (.ldReg x y) s = execLdReg x y s := rfl
theorem exec_orReg (x y : Nibble) (s : State) : exec (.orReg x y) s = execOrReg x y s := rfl
theorem exec_andReg (x y : Nibble) (s : State) : exec (.andReg x y) s = execAndReg x y s := rfl
theorem exec_xorReg (x y : Nibble) (s : State) : exec (.xorReg x y) s = execXorReg x y s := rfl
theorem exec_addReg (x y : Nibble) (s : State) : exec (.addReg x y) s = execAddReg x y s := rfl
theorem exec_subReg (x y : Nibble) (s : State) : exec (.subReg x y) s = execSubReg x y s := rfl
theorem exec_shr (x y : Nibble) (s : State) : exec (.shr x y) s = execShr x y s := rfl
theorem exec_subnReg (x y : Nibble) (s : State) : exec (.subnReg x y) s = execSubnReg x y s := rfl
theorem exec_shl (x y : Nibble) (s : State) : exec (.shl x y) s = execShl x y s := rfl
theorem exec_sneReg (x y : Nibble) (s : State) : exec (.sneReg x y) s = execSneReg x y s := rfl
theorem exec_ldI (nnn : Addr12) (s : State) : exec (.ldI nnn) s = execLdI nnn s := rfl
theorem exec_jpV0 (nnn : Addr12) (s : State) : exec (.jpV0 nnn) s = execJpV0 nnn s := rfl
theorem exec_rnd (x : Nibble) (nn : Byte) (s : State) : exec (.rnd x nn) s = execRnd x nn s := rfl
theorem exec_drw (x y n : Nibble) (s : State) : exec (.drw x y n) s = execDrw x y n s := rfl
theorem exec_skp (x : Nibble) (s : State) : exec (.skp x) s = execSkp x s := rfl
theorem exec_sknp (x : Nibble) (s : State) : exec (.sknp x) s = execSknp x s := rfl
theorem exec_ldVxDt (x : Nibble) (s : State) : exec (.ldVxDt x) s = execLdVxDt x s := rfl
theorem exec_ldVxK (x : Nibble) (s : State) : exec (.ldVxK x) s = execLdVxK x s := rfl
theorem exec_ldDtVx (x : Nibble) (s : State) : exec (.ldDtVx x) s = execLdDtVx x s := rfl
theorem exec_ldStVx (x : Nibble) (s : State) : exec (.ldStVx x) s = execLdStVx x s := rfl
theorem exec_addI (x : Nibble) (s : State) : exec (.addI x) s = execAddI x s := rfl
theorem exec_ldF (x : Nibble) (s : State) : exec (.ldF x) s = execLdF x s := rfl
theorem exec_ldB (x : Nibble) (s : State) : exec (.ldB x) s = execLdB x s := rfl
theorem exec_ldMemVx (x : Nibble) (s : State) : exec (.ldMemVx x) s = execLdMemVx x s := rfl
theorem exec_ldVxMem (x : Nibble) (s : State) : exec (.ldVxMem x) s = execLdVxMem x s := rfl

end Sys2Proof.Machine
end

