-- ==== Sys2Proof/Laws/PerInstr.lean ====
section
/-! SUPPORT. The family RowMatch: every instruction's word lies in the row of the opcode map its mnemonic names
(spec/30_encoding.md R74), one lemma per constructor. -/

namespace Sys2Proof.Laws.RowMatch

/-- The encoded word is in the instruction's own row of the opcode map. -/
def Statement (i : Instr) : Prop := i.inRowOf (encode i) = true

/-- A row of the map that names the instruction and selects its word. -/
theorem of_row {i : Instr} (r : Row) (hr : r ∈ opcodeMap) (hm : r.mnemonic = i.mnemonic)
    (hs : encode i &&& r.mask = r.pattern) : Statement i := by
  simp only [Statement, Instr.inRowOf, List.any_eq_true]
  exact ⟨r, hr, by simp [Row.selects, hm, hs]⟩

theorem cls : Statement .cls := by unfold Statement; decide
theorem ret : Statement .ret := by unfold Statement; decide
theorem jp (nnn : Addr12) : Statement (.jp nnn) :=
  of_row ⟨"JP_nnn", 0xF000, 0x1000⟩ (by decide) rfl (packNNN_mask 0x1#4 nnn)
theorem call (nnn : Addr12) : Statement (.call nnn) :=
  of_row ⟨"CALL_nnn", 0xF000, 0x2000⟩ (by decide) rfl (packNNN_mask 0x2#4 nnn)
theorem seImm (x : Nibble) (nn : Byte) : Statement (.seImm x nn) :=
  of_row ⟨"SE_Vx__nn", 0xF000, 0x3000⟩ (by decide) rfl (packXNN_mask 0x3#4 x nn)
theorem sneImm (x : Nibble) (nn : Byte) : Statement (.sneImm x nn) :=
  of_row ⟨"SNE_Vx__nn", 0xF000, 0x4000⟩ (by decide) rfl (packXNN_mask 0x4#4 x nn)
theorem seReg (x y : Nibble) : Statement (.seReg x y) :=
  of_row ⟨"SE_Vx__Vy", 0xF00F, 0x5000⟩ (by decide) rfl (packXYS_mask 0x5#4 x y 0x0#4)
theorem ldImm (x : Nibble) (nn : Byte) : Statement (.ldImm x nn) :=
  of_row ⟨"LD_Vx__nn", 0xF000, 0x6000⟩ (by decide) rfl (packXNN_mask 0x6#4 x nn)
theorem addImm (x : Nibble) (nn : Byte) : Statement (.addImm x nn) :=
  of_row ⟨"ADD_Vx__nn", 0xF000, 0x7000⟩ (by decide) rfl (packXNN_mask 0x7#4 x nn)
theorem ldReg (x y : Nibble) : Statement (.ldReg x y) :=
  of_row ⟨"LD_Vx__Vy", 0xF00F, 0x8000⟩ (by decide) rfl (packXYS_mask 0x8#4 x y 0x0#4)
theorem orReg (x y : Nibble) : Statement (.orReg x y) :=
  of_row ⟨"OR_Vx__Vy", 0xF00F, 0x8001⟩ (by decide) rfl (packXYS_mask 0x8#4 x y 0x1#4)
theorem andReg (x y : Nibble) : Statement (.andReg x y) :=
  of_row ⟨"AND_Vx__Vy", 0xF00F, 0x8002⟩ (by decide) rfl (packXYS_mask 0x8#4 x y 0x2#4)
theorem xorReg (x y : Nibble) : Statement (.xorReg x y) :=
  of_row ⟨"XOR_Vx__Vy", 0xF00F, 0x8003⟩ (by decide) rfl (packXYS_mask 0x8#4 x y 0x3#4)
theorem addReg (x y : Nibble) : Statement (.addReg x y) :=
  of_row ⟨"ADD_Vx__Vy", 0xF00F, 0x8004⟩ (by decide) rfl (packXYS_mask 0x8#4 x y 0x4#4)
theorem subReg (x y : Nibble) : Statement (.subReg x y) :=
  of_row ⟨"SUB_Vx__Vy", 0xF00F, 0x8005⟩ (by decide) rfl (packXYS_mask 0x8#4 x y 0x5#4)
theorem shr (x y : Nibble) : Statement (.shr x y) :=
  of_row ⟨"SHR_Vx", 0xF00F, 0x8006⟩ (by decide) rfl (packXYS_mask 0x8#4 x y 0x6#4)
theorem subnReg (x y : Nibble) : Statement (.subnReg x y) :=
  of_row ⟨"SUBN_Vx__Vy", 0xF00F, 0x8007⟩ (by decide) rfl (packXYS_mask 0x8#4 x y 0x7#4)
theorem shl (x y : Nibble) : Statement (.shl x y) :=
  of_row ⟨"SHL_Vx", 0xF00F, 0x800E⟩ (by decide) rfl (packXYS_mask 0x8#4 x y 0xE#4)
theorem sneReg (x y : Nibble) : Statement (.sneReg x y) :=
  of_row ⟨"SNE_Vx__Vy", 0xF00F, 0x9000⟩ (by decide) rfl (packXYS_mask 0x9#4 x y 0x0#4)
theorem ldI (nnn : Addr12) : Statement (.ldI nnn) :=
  of_row ⟨"LD_I__nnn", 0xF000, 0xA000⟩ (by decide) rfl (packNNN_mask 0xA#4 nnn)
theorem jpV0 (nnn : Addr12) : Statement (.jpV0 nnn) :=
  of_row ⟨"JP_V0__nnn", 0xF000, 0xB000⟩ (by decide) rfl (packNNN_mask 0xB#4 nnn)
theorem rnd (x : Nibble) (nn : Byte) : Statement (.rnd x nn) :=
  of_row ⟨"RND_Vx__nn", 0xF000, 0xC000⟩ (by decide) rfl (packXNN_mask 0xC#4 x nn)
theorem drw (x y n : Nibble) : Statement (.drw x y n) :=
  of_row ⟨"DRW_Vx__Vy__n", 0xF000, 0xD000⟩ (by decide) rfl (packXYN_mask 0xD#4 x y n)
theorem skp (x : Nibble) : Statement (.skp x) :=
  of_row ⟨"SKP_Vx", 0xF0FF, 0xE09E⟩ (by decide) rfl (packXSS_mask 0xE#4 x 0x9E#8)
theorem sknp (x : Nibble) : Statement (.sknp x) :=
  of_row ⟨"SKNP_Vx", 0xF0FF, 0xE0A1⟩ (by decide) rfl (packXSS_mask 0xE#4 x 0xA1#8)
theorem ldVxDt (x : Nibble) : Statement (.ldVxDt x) :=
  of_row ⟨"LD_Vx__DT", 0xF0FF, 0xF007⟩ (by decide) rfl (packXSS_mask 0xF#4 x 0x07#8)
theorem ldVxK (x : Nibble) : Statement (.ldVxK x) :=
  of_row ⟨"LD_Vx__K", 0xF0FF, 0xF00A⟩ (by decide) rfl (packXSS_mask 0xF#4 x 0x0A#8)
theorem ldDtVx (x : Nibble) : Statement (.ldDtVx x) :=
  of_row ⟨"LD_DT__Vx", 0xF0FF, 0xF015⟩ (by decide) rfl (packXSS_mask 0xF#4 x 0x15#8)
theorem ldStVx (x : Nibble) : Statement (.ldStVx x) :=
  of_row ⟨"LD_ST__Vx", 0xF0FF, 0xF018⟩ (by decide) rfl (packXSS_mask 0xF#4 x 0x18#8)
theorem addI (x : Nibble) : Statement (.addI x) :=
  of_row ⟨"ADD_I__Vx", 0xF0FF, 0xF01E⟩ (by decide) rfl (packXSS_mask 0xF#4 x 0x1E#8)
theorem ldF (x : Nibble) : Statement (.ldF x) :=
  of_row ⟨"LD_F__Vx", 0xF0FF, 0xF029⟩ (by decide) rfl (packXSS_mask 0xF#4 x 0x29#8)
theorem ldB (x : Nibble) : Statement (.ldB x) :=
  of_row ⟨"LD_B__Vx", 0xF0FF, 0xF033⟩ (by decide) rfl (packXSS_mask 0xF#4 x 0x33#8)
theorem ldMemVx (x : Nibble) : Statement (.ldMemVx x) :=
  of_row ⟨"LD__I___Vx", 0xF0FF, 0xF055⟩ (by decide) rfl (packXSS_mask 0xF#4 x 0x55#8)
theorem ldVxMem (x : Nibble) : Statement (.ldVxMem x) :=
  of_row ⟨"LD_Vx___I", 0xF0FF, 0xF065⟩ (by decide) rfl (packXSS_mask 0xF#4 x 0x65#8)

end Sys2Proof.Laws.RowMatch
end

