-- ==== Sys2Proof/Laws/Step.lean ====
section
/-! SUPPORT. What the step does before it fetches, and how a run unfolds (spec/00_scope.md R12, 30_encoding.md R70). -/

namespace Sys2Proof.Machine

/-- Where the host's next operation is a STEP, the step is the STEP operation. -/
theorem step_eq_stepOp {s : State} (h : s.stepsNext = true) : step s = stepOp s := by
  unfold State.stepsNext at h
  unfold step hostStep
  cases hs : s.host with
  | nil => rfl
  | cons op rest =>
    rw [hs] at h
    cases op <;> simp [HostOp.isStep] at h ⊢

theorem stepOp_running {s : State} (h : s.halt = .running) : stepOp s = runStep s := by rw [stepOp, h]

/-- A run of `k + 1` steps for any machine of the host's form. -/
theorem run_succ (M : Host.Core) (k : Nat) (s : M.State) :
    Host.Core.run M (k + 1) s =
      match M.step s with
      | .next t => Host.Core.run M k t
      | .fault r => .fault r
      | .refused r => .refused r := rfl

/-- A run goes on from the next state of its first step. -/
theorem run_next {s t : State} (k : Nat) (h : step s = .next t) :
    Host.Core.run Sys2Proof.core (k + 1) s = Host.Core.run Sys2Proof.core k t := by
  have e : Sys2Proof.core.step s = .next t := h
  rw [run_succ Sys2Proof.core k s, e]

end Sys2Proof.Machine
end

