-- ==== Sys2Proof/Tests/Slice0.lean ====
section
/-! SUPPORT. Tests of the model against the vectors of spec/95_test_vectors.md (named in each docstring), the decoding of a
word of every instruction written from spec/30_encoding.md R74, and a witness for the hypotheses of every statement. -/

namespace Sys2Proof.Tests

open Sys2Proof Sys2Proof.Machine

/-! ### Builders -/

/-- The state after RESET with some registers set. -/
def regs (l : List (Nibble × Byte)) : State := l.foldl (fun s p => s.setV p.1 p.2) State.reset

/-- The instruction word placed at PC. -/
def put (w : Nat) (s : State) : State := s.withFetchWord 16 w

/-- Something of the next state, if there is one. -/
def after {α : Type} (f : State → α) : Host.Outcome State Fault Refusal → Option α
  | .next t => some (f t)
  | _ => none

/-- No key down. -/
def noKeys : Keys := Vector.replicate 16 false

/-- Every key down. -/
def allKeys : Keys := Vector.replicate 16 true

/-- A STEP with these inputs comes next. -/
def input (keys : Keys) (rnd : Byte) (s : State) : State := { s with host := [.step keys rnd] }

/-- A state halted with this cause. -/
def haltedWith (c : HaltCause) : State := { State.reset with halt := .halted c }

/-! ### Well-formedness of the opcode map -/

/-- The map of 30 R74 passes its checks, and has 34 rows. -/
theorem test_opcode_map_wf : rowsWf opcodeMap = true ∧ opcodeMap.length = 34 := by decide

/-- A row whose pattern has a bit outside its mask is refused. -/
theorem test_wf_refuses_stray_pattern_bit : Row.wf ⟨"X", 0xF000, 0x1001⟩ = false := by decide

/-- Two rows one word selects are refused. -/
theorem test_wf_refuses_overlap :
    rowsWf [⟨"X", 0xF000, 0x8000⟩, ⟨"Y", 0xF00F, 0x8005⟩] = false := by decide

/-- An unmapped word is not well formed: 0x00E1, 0x5AB1, 0x8ABF, 0xEA9F, 0xFA75 (V-UNK-2, 5, 7, 9, 12). -/
theorem test_wf_refuses_unmapped_words :
    mapped 0x00E1 = false ∧ mapped 0x5AB1 = false ∧ mapped 0x8ABF = false ∧ mapped 0xEA9F = false ∧
    mapped 0xFA75 = false ∧ mapped 0x6A05 = true := by decide

/-- An instruction and a word of another row are refused. -/
theorem test_wf_refuses_wrong_row :
    Instr.inRowOf (.ldImm 0xA 5) 0x7A05 = false ∧ Instr.inRowOf (.ldImm 0xA 5) 0x6A05 = true := by decide

/-! ### Decoding: a word of every instruction, written from its row of 30 R74 -/

theorem test_decode_class_0 : decode 0x00E0 = .instr .cls ∧ decode 0x00EE = .instr .ret := by decide

theorem test_decode_jumps : decode 0x1ABC = .instr (.jp 0xABC) ∧ decode 0x2ABC = .instr (.call 0xABC) ∧
    decode 0xBABC = .instr (.jpV0 0xABC) := by decide

theorem test_decode_skips : decode 0x3A42 = .instr (.seImm 0xA 0x42) ∧ decode 0x4A42 = .instr (.sneImm 0xA 0x42) ∧
    decode 0x5AB0 = .instr (.seReg 0xA 0xB) ∧ decode 0x9AB0 = .instr (.sneReg 0xA 0xB) := by decide

theorem test_decode_immediates : decode 0x6A42 = .instr (.ldImm 0xA 0x42) ∧ decode 0x7A42 = .instr (.addImm 0xA 0x42) ∧
    decode 0xCA42 = .instr (.rnd 0xA 0x42) := by decide

theorem test_decode_class_8_low : decode 0x8AB0 = .instr (.ldReg 0xA 0xB) ∧ decode 0x8AB1 = .instr (.orReg 0xA 0xB) ∧
    decode 0x8AB2 = .instr (.andReg 0xA 0xB) ∧ decode 0x8AB3 = .instr (.xorReg 0xA 0xB) := by decide

theorem test_decode_class_8_high : decode 0x8AB4 = .instr (.addReg 0xA 0xB) ∧
    decode 0x8AB5 = .instr (.subReg 0xA 0xB) ∧ decode 0x8AB6 = .instr (.shr 0xA 0xB) ∧
    decode 0x8AB7 = .instr (.subnReg 0xA 0xB) ∧ decode 0x8ABE = .instr (.shl 0xA 0xB) := by decide

theorem test_decode_index : decode 0xAABC = .instr (.ldI 0xABC) ∧ decode 0xFA1E = .instr (.addI 0xA) ∧
    decode 0xFA29 = .instr (.ldF 0xA) ∧ decode 0xFA33 = .instr (.ldB 0xA) ∧ decode 0xFA55 = .instr (.ldMemVx 0xA) ∧
    decode 0xFA65 = .instr (.ldVxMem 0xA) := by decide

theorem test_decode_draw : decode 0xDABC = .instr (.drw 0xA 0xB 0xC) := by decide

theorem test_decode_keys_timers : decode 0xEA9E = .instr (.skp 0xA) ∧ decode 0xEAA1 = .instr (.sknp 0xA) ∧
    decode 0xFA0A = .instr (.ldVxK 0xA) ∧ decode 0xFA07 = .instr (.ldVxDt 0xA) ∧
    decode 0xFA15 = .instr (.ldDtVx 0xA) ∧ decode 0xFA18 = .instr (.ldStVx 0xA) := by decide

/-- The fields of 0xD12A and 0x8F4E (95 section 2.6). -/
theorem test_decode_fields : classOf 0xD12A = 0xD ∧ fieldX 0xD12A = 1 ∧ fieldY 0xD12A = 2 ∧ fieldN 0xD12A = 0xA ∧
    fieldNN 0xD12A = 0x2A ∧ fieldNNN 0xD12A = 0x12A ∧ classOf 0x8F4E = 8 ∧ fieldX 0x8F4E = 15 ∧ fieldY 0x8F4E = 4 ∧
    fieldN 0x8F4E = 0xE ∧ fieldNN 0x8F4E = 0x4E ∧ fieldNNN 0x8F4E = 0xF4E := by decide

/-- Bytes: the first is the high one; a single byte is no instruction (20 R52, 30 R71). -/
theorem test_decode_bytes : decodeBytes [0xD1, 0x2A, 0x77] = .ok (.instr (.drw 1 2 10), [0x77]) ∧
    decodeBytes [0xD1] = .error .truncated ∧ decodeBytes [0x01, 0x23] = .ok (.unknown 0x0123, []) := by decide

/-- Words of the table's numbering, unmapped ones included (V-UNK-4, V-UNK-13). -/
theorem test_decode_table_word : decodeTableWord 16 0xF265 = some (.ldVxMem 2) ∧ decodeTableWord 16 0x00FE = none ∧
    decodeTableWord 16 0xFFFF = none := by decide

/-- The encoder writes the words of the rows (30 R74). -/
theorem test_encode : encode .ret = 0x00EE ∧ encode (.call 0x20A) = 0x220A ∧ encode (.addImm 0xA 2) = 0x7A02 ∧
    encode (.shl 0xA 0xB) = 0x8ABE ∧ encode (.drw 1 2 5) = 0xD125 ∧ encode (.skp 4) = 0xE49E ∧
    encode (.ldMemVx 3) = 0xF355 ∧ encodeBytes (.ldB 0xA) = [0xFA, 0x33] := by decide

/-- The lines of 30 R82: CALL 0x20A, RND V3, 0x0F, SHR V3, LD [I], V1. -/
theorem test_assembly : Instr.assembly (.call 0x20A) = ("CALL", ["0x20A"]) ∧
    Instr.assembly (.rnd 3 0x0F) = ("RND", ["V3", "0x0F"]) ∧ Instr.assembly (.shr 3 0) = ("SHR", ["V3"]) ∧
    Instr.assembly (.ldMemVx 1) = ("LD", ["[I]", "V1"]) := by decide

/-! ### Reset and memory -/

/-- V-RST-1: an empty image. -/
theorem test_reset_empty : after (fun t => (t.pc, t.halt, t.mem.readBytes 0x50 5, t.mem.read 0x200, t.mem.read 0xFFF))
    (step { State.reset with host := [.reset []] }) =
    some (0x0200, .running, [0xF0, 0x90, 0x90, 0x90, 0xF0], 0, 0) := by decide

/-- V-RST-2: the image of source example E11. -/
theorem test_reset_image : after (fun t => (t.mem.readBytes 0x200 5, t.mem.read 0x1FF))
    (step { State.reset with host := [.reset [0x6A, 0x05, 0x7A, 0x02]] }) =
    some ([0x6A, 0x05, 0x7A, 0x02, 0x00], 0) := by decide

/-- V-RST-5: RESET of a halted machine with registers set. -/
theorem test_reset_leaves_halt : after (fun t => (t.halt, t.getV 3, t.dt, t.pc, t.mem.readBytes 0x200 2))
    (step { regs [(3, 0x99)] with
      dt := 7, halt := .halted (.fatal .stackOverflow), host := [.reset [0x12, 0x00]] }) =
    some (.running, 0, 0, 0x0200, [0x12, 0x00]) := by decide

/-- V-RST-4: after a RESET that failed, a STEP is refused (D38). -/
theorem test_failed_reset_refuses_step :
    step (haltedWith (.fatal (.programTooLarge 3585))) = .refused .machineNotConstructed := by rfl

/-- The reset memory is in the canonical form, and a write back of the reset value removes the entry. -/
theorem test_memory_canonical : State.reset.mem.wf = true ∧
    Memory.write (Memory.write [] 0x050 0x11) 0x050 0xF0 = [] ∧ Memory.write (Memory.write [] 7 9) 5 8 = [(5, 8), (7, 9)] ∧
    Memory.write [] 4096 1 = [] := by decide

/-- The font table has 80 bytes (20 R59). -/
theorem test_font_length : fontTable.length = 80 := by decide

/-! ### STEP -/

/-- Source example E11, first STEP: fetch at 0x200, VA = 5, PC = 0x202. -/
theorem test_step_e11 : after (fun t => (t.getV 0xA, t.pc, t.diag)) (step (put 0x6A05 State.reset)) =
    some (5, 0x0202, none) := by decide

/-- V-FETCH-1: the last legal fetch address. -/
theorem test_fetch_last : after (fun t => (t.getV 0xA, t.pc, t.halt))
    (step (put 0x6A05 { State.reset with pc := 0x0FFE })) = some (5, 0x1000, .running) := by decide

/-- V-FETCH-2 and V-FETCH-3. -/
theorem test_fetch_out_of_range :
    after (fun t => (t.pc, t.halt)) (step { State.reset with pc := 0x0FFF }) =
      some (0x0FFF, .halted (.fatal (.addressOutOfRange 0x1000))) ∧
    after (fun t => (t.pc, t.halt)) (step { State.reset with pc := 0x1000 }) =
      some (0x1000, .halted (.fatal (.addressOutOfRange 0x1000))) := by decide

/-- V-UNK-1: the reset state's first STEP executes the word 0x0000. -/
theorem test_unknown_zero : after (fun t => (t.pc, t.diag, t.halt)) (step State.reset) =
    some (0x0202, some (.unknownInstruction 0x0000), .running) := by decide

/-- V-UNK-5: a word near a skip is no skip. -/
theorem test_unknown_near_skip : after (fun t => (t.pc, t.diag)) (step (put 0x5AB1 (regs [(0xA, 7), (0xB, 7)]))) =
    some (0x0202, some (.unknownInstruction 0x5AB1)) := by decide

/-- V-HALT-1. -/
theorem test_halted_step : after (fun t => (t.getV 0xA, t.pc, t.halt, t.diag))
    (step { put 0x6A05 State.reset with halt := .halted .hostStop }) = some (0, 0x0200, .halted .hostStop, none) := by
  decide

/-- A halted state counts as a fault exactly when the cause is fatal (60 R207, R224). -/
theorem test_verdict : (haltedWith (.fatal .stackOverflow)).verdict = some (.fatal .stackOverflow) ∧
    (haltedWith .hostStop).verdict = none ∧ State.reset.verdict = none := by decide

/-! ### Host operations -/

/-- V-TICK-3 and V-TICK-6. -/
theorem test_tick : after (fun t => (t.dt, t.st)) (step { State.reset with dt := 0, st := 5, host := [.tick] }) =
      some (0, 4) ∧
    after (fun t => (t.dt, t.halt)) (step { haltedWith (.fatal .stackUnderflow) with dt := 3, host := [.tick] }) =
      some (2, .halted (.fatal .stackUnderflow)) := by decide

/-- V-FRAME-1. -/
theorem test_consume_frame : after (fun t => (t.dirty, t.pc)) (step { State.reset with dirty := true, host := [.consumeFrame] }) =
    some (false, 0x0200) := by decide

/-- V-STOP-1 and V-STOP-2. -/
theorem test_stop : after (fun t => t.halt) (step { State.reset with host := [.stop] }) = some (.halted .hostStop) ∧
    after (fun t => t.halt) (step { haltedWith (.fatal .stackOverflow) with host := [.stop] }) =
      some (.halted (.fatal .stackOverflow)) := by decide

/-- The numeric codes of 60 R200. -/
theorem test_condition_codes : (FatalCondition.programTooLarge 3585).code = 1 ∧
    (FatalCondition.addressOutOfRange 0x1000).code = 2 ∧ FatalCondition.stackOverflow.code = 3 ∧
    FatalCondition.stackUnderflow.code = 4 ∧ (Diagnostic.unknownInstruction 0).code = 5 ∧
    (FatalCondition.keyIndexOutOfRange 16).code = 6 := by decide

/-! ### Control transfer -/

/-- V-RET-1. -/
theorem test_ret : after (fun t => (t.pc, t.sp))
    (step (put 0x00EE { State.reset with pc := 0x20C, sp := 1, stack := State.reset.stack.set 0 0x0206 })) =
    some (0x0206, 0) := by decide

/-- V-RET-2. -/
theorem test_ret_empty : after (fun t => (t.pc, t.halt)) (step (put 0x00EE State.reset)) =
    some (0x0200, .halted (.fatal .stackUnderflow)) := by decide

/-- V-JP-1 and V-JP-4. -/
theorem test_jp : after (fun t => t.pc) (step (put 0x1ABC State.reset)) = some 0x0ABC ∧
    after (fun t => t.pc) (step (put 0x1201 State.reset)) = some 0x0201 := by decide

/-- V-CALL-2. -/
theorem test_call_sixteenth : after (fun t => (t.pc, t.sp, t.stack[15])) (step (put 0x2300 { State.reset with sp := 15 })) =
    some (0x0300, 16, 0x0202) := by decide

/-- V-CALL-3. -/
theorem test_call_full : after (fun t => (t.pc, t.sp, t.halt)) (step (put 0x2300 { State.reset with sp := 16 })) =
    some (0x0200, 16, .halted (.fatal .stackOverflow)) := by decide

/-- V-JPV0-2 and V-JPV0-3. -/
theorem test_jpv0 : after (fun t => t.pc) (step (put 0xBFFF (regs [(0, 0xFF)]))) = some 0x10FE ∧
    after (fun t => t.pc) (step (put 0xB300 (regs [(3, 0x55)]))) = some 0x0300 := by decide

/-- V-SE-1 and V-SE-2. -/
theorem test_se_imm : after (fun t => t.pc) (step (put 0x3A05 (regs [(0xA, 5)]))) = some 0x0204 ∧
    after (fun t => t.pc) (step (put 0x3A05 (regs [(0xA, 6)]))) = some 0x0202 := by decide

/-- V-SNE-1 and V-SNE-2. -/
theorem test_sne_imm : after (fun t => t.pc) (step (put 0x4A05 (regs [(0xA, 6)]))) = some 0x0204 ∧
    after (fun t => t.pc) (step (put 0x4A05 (regs [(0xA, 5)]))) = some 0x0202 := by decide

/-- V-SER-1 and V-SER-2. -/
theorem test_se_reg : after (fun t => t.pc) (step (put 0x5AB0 (regs [(0xA, 7), (0xB, 7)]))) = some 0x0204 ∧
    after (fun t => t.pc) (step (put 0x5AB0 (regs [(0xA, 7), (0xB, 8)]))) = some 0x0202 := by decide

/-- V-SNER-1 and V-SNER-3. -/
theorem test_sne_reg : after (fun t => t.pc) (step (put 0x9AB0 (regs [(0xA, 7), (0xB, 8)]))) = some 0x0204 ∧
    after (fun t => t.pc) (step (put 0x9AA0 (regs [(0xA, 0x33)]))) = some 0x0202 := by decide

/-! ### Loads and arithmetic -/

/-- V-LDI-2. -/
theorem test_ld_imm : after (fun t => t.getV 0xF) (step (put 0x6FFF State.reset)) = some 0xFF := by decide

/-- V-ADDI-1 and V-ADDI-3. -/
theorem test_add_imm : after (fun t => (t.getV 0xA, t.getV 0xF)) (step (put 0x7A01 (regs [(0xA, 0xFF), (0xF, 1)]))) =
      some (0, 1) ∧
    after (fun t => t.getV 0xF) (step (put 0x7F01 (regs [(0xF, 0xFF)]))) = some 0 := by decide

/-- V-LDR-1. -/
theorem test_ld_reg : after (fun t => (t.getV 0xA, t.getV 0xF))
    (step (put 0x8AB0 (regs [(0xA, 1), (0xB, 0x7E), (0xF, 1)]))) = some (0x7E, 1) := by decide

/-- V-OR-1, V-AND-1 and V-XOR-1. -/
theorem test_logic :
    after (fun t => (t.getV 0xA, t.getV 0xF)) (step (put 0x8AB1 (regs [(0xA, 0xF0), (0xB, 0x0F), (0xF, 1)]))) =
      some (0xFF, 1) ∧
    after (fun t => (t.getV 0xA, t.getV 0xF)) (step (put 0x8AB2 (regs [(0xA, 0xF0), (0xB, 0x3C), (0xF, 1)]))) =
      some (0x30, 1) ∧
    after (fun t => (t.getV 0xA, t.getV 0xF)) (step (put 0x8AB3 (regs [(0xA, 0xFF), (0xB, 0x0F), (0xF, 1)]))) =
      some (0xF0, 1) := by decide

/-- V-ADD-1 and V-ADD-2 (source example E5). -/
theorem test_add_reg :
    after (fun t => (t.getV 0xA, t.getV 0xF)) (step (put 0x8AB4 (regs [(0xA, 0xF0), (0xB, 0x20)]))) = some (0x10, 1) ∧
    after (fun t => (t.getV 0xA, t.getV 0xF)) (step (put 0x8AB4 (regs [(0xA, 0x10), (0xB, 0x20), (0xF, 1)]))) =
      some (0x30, 0) := by decide

/-- V-ADD-6 and V-ADD-7: VF as destination, VF as operand. -/
theorem test_add_reg_vf : after (fun t => t.getV 0xF) (step (put 0x8FB4 (regs [(0xF, 0xF0), (0xB, 0x20)]))) = some 1 ∧
    after (fun t => (t.getV 0xA, t.getV 0xF)) (step (put 0x8AF4 (regs [(0xA, 1), (0xF, 0xFF)]))) = some (0, 1) := by
  decide

/-- V-SUB-2 and V-SUB-3. -/
theorem test_sub_reg :
    after (fun t => (t.getV 0xA, t.getV 0xF)) (step (put 0x8AB5 (regs [(0xA, 0x10), (0xB, 0x30), (0xF, 1)]))) =
      some (0xE0, 0) ∧
    after (fun t => (t.getV 0xA, t.getV 0xF)) (step (put 0x8AB5 (regs [(0xA, 0x10), (0xB, 0x10), (0xF, 1)]))) =
      some (0, 0) := by decide

/-- V-SHR-1 and V-SHR-5. -/
theorem test_shr :
    after (fun t => (t.getV 0xA, t.getV 0xB, t.getV 0xF)) (step (put 0x8AB6 (regs [(0xA, 5), (0xB, 0xFF)]))) =
      some (2, 0xFF, 1) ∧
    after (fun t => t.getV 0xF) (step (put 0x8FB6 (regs [(0xF, 2)]))) = some 0 := by decide

/-- V-SUBN-1 and V-SUBN-2. -/
theorem test_subn_reg :
    after (fun t => (t.getV 0xA, t.getV 0xF)) (step (put 0x8AB7 (regs [(0xA, 0x10), (0xB, 0x30)]))) = some (0x20, 1) ∧
    after (fun t => (t.getV 0xA, t.getV 0xF)) (step (put 0x8AB7 (regs [(0xA, 0x30), (0xB, 0x10), (0xF, 1)]))) =
      some (0xE0, 0) := by decide

/-- V-SHL-1 and V-SHL-4. -/
theorem test_shl :
    after (fun t => (t.getV 0xA, t.getV 0xB, t.getV 0xF)) (step (put 0x8ABE (regs [(0xA, 0x81), (0xB, 0xFF)]))) =
      some (2, 0xFF, 1) ∧
    after (fun t => t.getV 0xF) (step (put 0x8FBE (regs [(0xF, 0x80)]))) = some 1 := by decide

/-- V-RND-1 and V-RND-2. -/
theorem test_rnd : after (fun t => t.getV 0xA) (step (put 0xCA0F (input noKeys 0xA7 State.reset))) = some 0x07 ∧
    after (fun t => t.getV 0xA) (step (put 0xCAFF (input noKeys 0x00 (regs [(0xA, 0x55)])))) = some 0 := by decide

/-! ### Index register and memory -/

/-- V-LDIX-2. -/
theorem test_ld_i : after (fun t => (t.i, t.pc)) (step (put 0xAFFF { State.reset with i := 0xFFFF })) =
    some (0x0FFF, 0x0202) := by decide

/-- V-ADDIX-2 and V-ADDIX-4. -/
theorem test_add_i : after (fun t => (t.i, t.getV 0xF)) (step (put 0xFA1E { regs [(0xA, 1)] with i := 0x0FFF })) =
      some (0x1000, 1) ∧
    after (fun t => (t.i, t.getV 0xF)) (step (put 0xFA1E { regs [(0xA, 1)] with i := 0xFFFF })) = some (0, 0) := by decide

/-- V-FONT-2 and V-FONT-4. -/
theorem test_ld_f : after (fun t => t.i) (step (put 0xFA29 (regs [(0xA, 0x0F)]))) = some 0x009B ∧
    after (fun t => t.i) (step (put 0xFA29 (regs [(0xA, 0xFF)]))) = some 0x054B := by decide

/-- V-BCD-1. -/
theorem test_bcd : after (fun t => (t.mem.readBytes 0x300 3, t.i)) (step (put 0xFA33 { regs [(0xA, 0xFE)] with i := 0x300 })) =
    some ([2, 5, 4], 0x300) := by decide

/-- V-BCD-7. -/
theorem test_bcd_out_of_range : after (fun t => (t.mem.readBytes 0xFFE 2, t.pc, t.halt))
    (step (put 0xFA33 { regs [(0xA, 0x7B)] with i := 0xFFE })) =
    some ([0, 0], 0x0200, .halted (.fatal (.addressOutOfRange 0x1000))) := by decide

/-- V-ST-1. -/
theorem test_store : after (fun t => (t.mem.readBytes 0x300 5, t.i))
    (step (put 0xF355 { regs [(0, 0x11), (1, 0x22), (2, 0x33), (3, 0x44), (4, 0x55)] with i := 0x300 })) =
    some ([0x11, 0x22, 0x33, 0x44, 0x00], 0x300) := by decide

/-- V-ST-6. -/
theorem test_store_no_wrap : after (fun t => (t.mem.read 0, t.halt)) (step (put 0xF155 { regs [(0, 0x77)] with i := 0xFFFF })) =
    some (0, .halted (.fatal (.addressOutOfRange 0xFFFF))) := by decide

/-- V-LDM-2. -/
theorem test_load_font : after (fun t => (t.getV 0, t.getV 1, t.i)) (step (put 0xF065 { regs [(1, 0x99)] with i := 0x50 })) =
    some (0xF0, 0x99, 0x50) := by decide

/-- V-LDM-4. -/
theorem test_load_out_of_range : after (fun t => (t.getV 0, t.halt)) (step (put 0xF165 { regs [(0, 0x99)] with i := 0xFFF })) =
    some (0x99, .halted (.fatal (.addressOutOfRange 0x1000))) := by decide

/-! ### Display -/

/-- V-CLS-2. -/
theorem test_cls : after (fun t => (t.disp.cell 0 0, t.disp.cell 31 63, t.dirty, t.getV 0xF))
    (step (put 0x00E0 { regs [(0xF, 1)] with disp := (Display.blank.setCell 0 0 true).setCell 31 63 true })) =
    some (false, false, true, 1) := by decide

/-- V-DRW-10: the column comes from VF before VF is cleared; row 2 is lit at columns 5 to 8. -/
theorem test_drw_origin_vf : after
    (fun t => (t.getV 0xF, t.dirty, (List.range 10).map (fun c => t.disp.cell 2 c), t.disp.cell 3 6))
    (step (put 0xDF25 { regs [(0xF, 5), (2, 2)] with i := 0x50 })) =
    some (0, true, [false, false, false, false, false, true, true, true, true, false], false) := by decide

/-- V-DRW-13: columns 64 to 67 are dropped, nothing wraps. -/
theorem test_drw_clips : after
    (fun t => (t.disp.cell 31 59, t.disp.cell 31 60, t.disp.cell 31 63, t.disp.cell 31 0, t.disp.cell 0 60))
    (step (put 0xD121 { regs [(1, 0x3C), (2, 0x1F)] with i := 0x300, mem := Memory.write [] 0x300 0xFF })) =
    some (false, true, true, false, false) := by decide

/-! ### Keypad and timers -/

/-- V-SKP-1 and V-SKP-4. -/
theorem test_skp : after (fun t => t.pc) (step (put 0xE49E (input (noKeys.set 5 true) 0 (regs [(4, 5)])))) = some 0x0204 ∧
    after (fun t => (t.pc, t.halt)) (step (put 0xE49E (input allKeys 0 (regs [(4, 0x10)])))) =
      some (0x0200, .halted (.fatal (.keyIndexOutOfRange 16))) := by decide

/-- V-SKNP-1 and V-SKNP-2. -/
theorem test_sknp : after (fun t => t.pc) (step (put 0xE4A1 (input noKeys 0 (regs [(4, 5)])))) = some 0x0204 ∧
    after (fun t => t.pc) (step (put 0xE4A1 (input (noKeys.set 5 true) 0 (regs [(4, 5)])))) = some 0x0202 := by decide

/-- V-KEY-1 and V-KEY-3. -/
theorem test_wait_key :
    after (fun t => (t.pc, t.getV 0xA)) (step (put 0xFA0A (input noKeys 0 (regs [(0xA, 0x77)])))) = some (0x0200, 0x77) ∧
    after (fun t => (t.pc, t.getV 0xA))
      (step (put 0xFA0A (input (((noKeys.set 3 true).set 5 true).set 12 true) 0 (regs [(0xA, 0x77)])))) =
      some (0x0202, 3) := by decide

/-- V-DT-1, V-DT-2 and V-ST-T1. -/
theorem test_timers : after (fun t => t.getV 1) (step (put 0xF107 { State.reset with dt := 42 })) = some 0x2A ∧
    after (fun t => t.dt) (step (put 0xF015 (regs [(0, 0x3C)]))) = some 60 ∧
    after (fun t => (t.st, t.sound)) (step (put 0xF018 (regs [(0, 2)]))) = some (2, true) := by decide

/-- With no STEP pending the keys are free values, and the machine still answers a next state. -/
theorem test_free_keys : ∃ t, step (put 0xFA0A State.reset) = .next t := ⟨_, rfl⟩

/-! ### Witnesses: each statement's hypotheses met together, at the ends of their ranges -/

/-- The machine of V-CALL-2 and others: the reset state at a stack depth, the top slot holding 0x0206. -/
def depth (n : Fin 17) : State := { State.reset with sp := n, stack := Vector.replicate 16 0x0206#16 }

/-- The draw of V-DRW-1 from the reset display. -/
def drawState : State := { regs [(1, 5), (2, 2)] with i := 0x50 }

/-- The same on a display whose cells are all lit. -/
def drawStateLit : State := { drawState with disp := Vector.replicate 32 (Vector.replicate 64 true) }

/-- EncodeDecodeRoundTrip. -/
theorem test_witness_encode_decode : decode 0x6A05 = .instr (.ldImm 0xA 0x05) := by decide

/-- OpcodeRowsPairwiseDisjoint. -/
theorem test_witness_rows : ∃ (w : Word) (r q : Row), r ∈ opcodeMap ∧ q ∈ opcodeMap ∧ r.selects w = true ∧
    q.selects w = true := ⟨0x00E0, ⟨"CLS", 0xFFFF, 0x00E0⟩, ⟨"CLS", 0xFFFF, 0x00E0⟩, by decide⟩

/-- UnmappedWordsAreUnknown: a mapped word, and an unmapped one of each class that has one. -/
theorem test_witness_unmapped : mapped 0x00EE = true ∧
    [0x0000#16, 0x5001, 0x800F, 0x9001, 0xE000, 0xF000].all (fun w => !mapped w) = true := by decide

/-- FetchIsBigEndian, the three ranges at their ends. -/
theorem test_witness_fetch : (0x0FFE#16).toNat ≤ 0xFFE ∧ (0x0FFF#16).toNat = 0xFFF ∧ 0x1000 ≤ (0x1000#16).toNat := by decide

/-- StepRunsDecodedInstruction, at PC = 0x200. -/
theorem test_witness_step_runs : (put 0x6A05 State.reset).halt = .running ∧ (put 0x6A05 State.reset).stepsNext = true ∧
    (put 0x6A05 State.reset).pc.toNat ≤ 0xFFE ∧
    decodeBytes [(put 0x6A05 State.reset).mem.read 0x200, (put 0x6A05 State.reset).mem.read 0x201] =
      .ok (.instr (.ldImm 0xA 0x05), []) := by decide

/-- The same at the last address of a fetch, PC = 0xFFE. -/
def topState : State := put 0x6A05 { State.reset with pc := 0x0FFE }

theorem test_witness_step_runs_top : topState.halt = .running ∧ topState.stepsNext = true ∧ topState.pc.toNat ≤ 0xFFE ∧
    decodeBytes [topState.mem.read topState.pc.toNat, topState.mem.read (topState.pc.toNat + 1)] =
      .ok (.instr (.ldImm 0xA 0x05), []) := by decide

/-- UnmappedWordIsNoOperation. -/
theorem test_witness_unmapped_step : State.reset.halt = .running ∧ State.reset.stepsNext = true ∧
    State.reset.fetch = .word 0x0000 ∧ decode 0x0000 = .unknown 0x0000 := by decide

/-- HaltedStepChangesNothing, with either kind of cause. -/
theorem test_witness_halted : ((haltedWith .hostStop).halt = .halted .hostStop ∧
      (∀ n, HaltCause.hostStop ≠ .fatal (.programTooLarge n)) ∧ (haltedWith .hostStop).stepsNext = true) ∧
    ((haltedWith (.fatal .stackOverflow)).halt = .halted (.fatal .stackOverflow) ∧
      (∀ n, HaltCause.fatal .stackOverflow ≠ .fatal (.programTooLarge n)) ∧
      (haltedWith (.fatal .stackOverflow)).stepsNext = true) :=
  ⟨⟨rfl, (fun n h => by cases h), rfl⟩, rfl, (fun n h => by cases h), rfl⟩

/-- FetchOutOfRangeHalts, at the first two values. -/
theorem test_witness_fetch_halts : State.reset.halt = .running ∧ State.reset.stepsNext = true ∧
    0xFFE < ({ State.reset with pc := 0x0FFF } : State).pc.toNat ∧
    0xFFE < ({ State.reset with pc := 0x1000 } : State).pc.toNat := by decide

/-- HaltingStepCommitsNothing: a RET on the empty stack. -/
theorem test_witness_halting_step : ∃ t, (put 0x00EE State.reset).halt = .running ∧
    (put 0x00EE State.reset).stepsNext = true ∧ step (put 0x00EE State.reset) = .next t ∧ t.halt ≠ .running :=
  ⟨_, rfl, rfl, rfl, by decide⟩

/-- PlacedWordRunsNext, BcdStoresDigits, BlockStore: the memory premise. -/
theorem test_witness_memory : State.reset.mem.wf = true ∧ Memory.wf [(0x000, 1), (0xFFF, 1)] = true ∧
    Memory.wf [(1, 1), (0, 1)] = false := by decide

/-- StepStopsOnlyAfterFailedReset: both cases. -/
theorem test_witness_constructed : (haltedWith (.fatal (.programTooLarge 3585))).constructed = false ∧
    (haltedWith (.fatal (.programTooLarge 3585))).stepsNext = true ∧ State.reset.constructed = true := by decide

/-- StepInputsComeFromSchedule: both cases. -/
theorem test_witness_inputs : (input allKeys 0xA7 State.reset).host = .step allKeys 0xA7 :: [] ∧ State.reset.host = [] := by
  decide

/-- TickDecrementsTimers, ConsumeFrameClearsDirty, StopLatchesHostStop, OnlyResetLeavesHalt: the operation comes next. -/
theorem test_witness_host_ops : ∀ op ∈ [HostOp.tick, .consumeFrame, .stop],
    ({ State.reset with host := [op] } : State).host = op :: [] := by decide

/-- TicksCountDownToZero: the sixty TICKs of source example E9. -/
theorem test_witness_ticks : ({ State.reset with dt := 60, host := List.replicate 60 .tick } : State).host =
    List.replicate 60 .tick := rfl

/-- ResetLoadsImage, ResetClearsRegisters: the empty image and the largest one; FailedResetCannotStep: one byte more. -/
theorem test_witness_reset : ([] : List Byte).length ≤ 3584 ∧ (List.replicate 3584 0x12#8).length ≤ 3584 ∧
    3584 < (List.replicate 3585 0x12#8).length ∧
    ∀ image : List Byte, ({ State.reset with host := [.reset image] } : State).host = .reset image :: [] :=
  ⟨Nat.zero_le _, Nat.le_of_eq List.length_replicate, Nat.lt_of_lt_of_eq (Nat.lt_succ_self 3584) List.length_replicate.symm,
    fun _ => rfl⟩

/-- FailedResetCannotStep, second part. -/
theorem test_witness_failed_reset : (haltedWith (.fatal (.programTooLarge 3585))).halt =
    .halted (.fatal (.programTooLarge 3585)) ∧ (haltedWith (.fatal (.programTooLarge 3585))).stepsNext = true := by decide

/-- CallPushesReturnAddress, CallThenReturnResumes: an empty stack, and the last free slot. -/
theorem test_witness_call : (depth 0).sp.val < 16 ∧ (0 : Fin 16).val = (depth 0).sp.val ∧ (depth 15).sp.val < 16 ∧
    (15 : Fin 16).val = (depth 15).sp.val ∧ (14 : Fin 16).val < (depth 15).sp.val := by decide

/-- ReturnPopsAddress: one entry, and a full stack. -/
theorem test_witness_return : (depth 1).sp.val = (0 : Fin 16).val + 1 ∧ (depth 16).sp.val = (15 : Fin 16).val + 1 := by decide

/-- StackViolationsHalt: both ends. -/
theorem test_witness_stack_violations : (depth 16).sp.val = 16 ∧ (depth 0).sp.val = 0 := by decide

/-- AddSetsCarry, SubtractSetsStrictlyGreater, ShiftsSetLostBit: a destination that is not VF. -/
theorem test_witness_not_vf : (14#4 : Nibble) ≠ 15#4 := by decide

/-- RandomIsMasked: a bit nn lacks, and a schedule that gives the byte. -/
theorem test_witness_random : (0x0F#8 : Byte).getLsbD 4 = false ∧
    (input noKeys 0xA7 State.reset).host = .step noKeys 0xA7 :: [] := by decide

/-- BcdStoresDigits: the last I in range. -/
theorem test_witness_bcd : let s := { State.reset with i := 0x0FFD }
    s.mem.wf = true ∧ s.i.toNat + 2 ≤ 0x0FFF := by decide

/-- BlockStore and BlockLoad: all sixteen registers up to the last byte, and one register there. -/
theorem test_witness_block : let s := { State.reset with i := 0x0FF0 }
    s.mem.wf = true ∧ s.i.toNat + (15#4 : Nibble).toNat ≤ 0x0FFF ∧
    ({ s with i := 0x0FFF } : State).i.toNat + (0#4 : Nibble).toNat ≤ 0x0FFF ∧ (15#4 : Nibble).toNat ≤ (15#4 : Nibble).toNat := by
  decide

/-- IndexOutOfRangeHalts: the first I out of range for each form, the draw with one row too. -/
theorem test_witness_out_of_range : 0x0FFF < (0x0FFE#16).toNat + 2 ∧ 0x0FFF < (0x0FF1#16).toNat + (15#4 : Nibble).toNat ∧
    0x0FFF < (0x1000#16).toNat + (0#4 : Nibble).toNat ∧
    (1 ≤ (15#4 : Nibble).toNat ∧ 0x0FFF < (0x0FF2#16).toNat + (15#4 : Nibble).toNat - 1) ∧
    (1 ≤ (1#4 : Nibble).toNat ∧ 0x0FFF < (0x1000#16).toNat + (1#4 : Nibble).toNat - 1) := by decide

/-- StoreIsFetchedNext: Fx55 at 0x200 with I = 0x202. -/
theorem test_witness_store_fetched : let s := { State.reset with i := 0x0202 }
    s.mem.wf = true ∧ 1 ≤ (1#4 : Nibble).toNat ∧ s.i.toNat + (1#4 : Nibble).toNat ≤ 0x0FFF ∧ s.i = s.pc + 2#16 := by decide

/-- DrawTogglesCoveredCells: a draw of no rows at any I, and one that reads the last byte. -/
theorem test_witness_draw_range : ((0#4 : Nibble).toNat = 0 ∨ (0xFFFF#16).toNat + (0#4 : Nibble).toNat - 1 ≤ 0x0FFF) ∧
    ((5#4 : Nibble).toNat = 0 ∨ (0x0FFB#16).toNat + (5#4 : Nibble).toNat - 1 ≤ 0x0FFF) := by decide

/-- DrawTogglesCoveredCells: a covered cell that is lit, and a display with none lit. -/
theorem test_witness_draw_collision :
    spriteCovers (drawState.mem.readBytes 0x50 5) 5 2 2 5 = true ∧ drawStateLit.disp.cell 2 5 = true ∧
    ∀ r c, drawState.disp.cell r c = false :=
  ⟨by decide, by decide, fun r c => by
    show Display.cell (Vector.replicate 32 (Vector.replicate 64 false)) r c = false
    unfold Display.cell; split <;> simp⟩

/-- DrawTwiceRestores: two identical draws in a row, from a blank display and from a lit one. -/
theorem test_witness_draw_twice : ∀ s ∈ [drawState, drawStateLit], ∃ t u,
    ((5#4 : Nibble).toNat = 0 ∨ s.i.toNat + (5#4 : Nibble).toNat - 1 ≤ 0x0FFF) ∧ exec (.drw 1 2 5) s = .next t ∧
    t.i = s.i ∧ t.mem.readBytes t.i.toNat 5 = s.mem.readBytes s.i.toNat 5 ∧
    (t.getV 1).toNat % 64 = (s.getV 1).toNat % 64 ∧ (t.getV 2).toNat % 32 = (s.getV 2).toNat % 32 ∧
    exec (.drw 1 2 5) t = .next u := by
  intro s hs
  simp only [List.mem_cons, List.not_mem_nil, or_false] at hs
  rcases hs with rfl | rfl <;> exact ⟨_, _, by decide, rfl, rfl, rfl, rfl, rfl, rfl⟩

/-- SkipsOnKey and KeyIndexOutOfRangeHalts: the last key index, and the first value past it. -/
theorem test_witness_key : (State.getV (regs [(4, 0x0F)]) 4).toNat = (15 : Fin 16).val ∧
    15 < (State.getV (regs [(4, 0x10)]) 4).toNat := by decide

/-- WaitKeyTakesLowestKey: the keys of V-KEY-3, of V-KEY-4, and none. -/
theorem test_witness_wait_key :
    (let s := input (((noKeys.set 3 true).set 5 true).set 12 true) 0 State.reset
     s.keys[(3 : Fin 16)] = true ∧ ∀ j : Fin 16, j < 3 → s.keys[j] = false) ∧
    (let s := input (noKeys.set 0 true) 0 State.reset
     s.keys[(0 : Fin 16)] = true ∧ ∀ j : Fin 16, j < 0 → s.keys[j] = false) ∧
    ∀ k : Fin 16, (input noKeys 0 State.reset).keys[k] = false := by decide

/-- TimerTransfers, second part: DT and ST do change. -/
theorem test_witness_timers : ∃ t u, exec (.ldDtVx 0) (regs [(0, 0x3C)]) = .next t ∧ t.dt ≠ (regs [(0, 0x3C)]).dt ∧
    exec (.ldStVx 0) (regs [(0, 0x3C)]) = .next u ∧ u.st ≠ (regs [(0, 0x3C)]).st := ⟨_, _, rfl, by decide, rfl, by decide⟩

/-- OnlyMarkedInstructionsSetVF: VF as a flag, and as a destination. -/
theorem test_witness_vf : ∃ t u, exec (.addReg 0xA 0xB) (regs [(0xA, 0xF0), (0xB, 0x20)]) = .next t ∧ t.getV 15 ≠ 0 ∧
    exec (.ldImm 15 0xFF) State.reset = .next u ∧ u.getV 15 ≠ State.reset.getV 15 :=
  ⟨_, _, rfl, by decide, rfl, by decide⟩

/-- OnlyDestinationsChange. -/
theorem test_witness_destination : ∃ t, exec (.ldImm 0xA 5) State.reset = .next t ∧ (0xA#4 : Nibble) ≠ 15#4 ∧
    t.getV 0xA ≠ State.reset.getV 0xA := ⟨_, rfl, by decide, by decide⟩

/-- EachPieceHasItsWriters: I, SP and STACK change. -/
theorem test_witness_writers : ∃ t u, exec (.ldI 0x300) State.reset = .next t ∧ t.i ≠ State.reset.i ∧
    exec (.call 0x300) State.reset = .next u ∧ u.sp ≠ State.reset.sp ∧ u.stack ≠ State.reset.stack :=
  ⟨_, _, rfl, by decide, rfl, by decide, by decide⟩

/-- EachPieceHasItsWriters: the display, DIRTY and memory change. -/
theorem test_witness_writers_memory : ∃ t u, exec .cls drawStateLit = .next t ∧
    t.disp.cell 0 0 ≠ drawStateLit.disp.cell 0 0 ∧ t.dirty ≠ drawStateLit.dirty ∧
    exec (.ldB 1) { drawState with i := 0x300 } = .next u ∧ u.mem ≠ drawState.mem :=
  ⟨_, _, rfl, by decide, by decide, rfl, by decide⟩

/-- OnlyResetLeavesHalt: a TICK on a halted machine. -/
theorem test_witness_stays_halted : ∃ t, step { haltedWith .hostStop with host := [.tick] } = .next t ∧
    (haltedWith .hostStop).halt ≠ .running ∧ ∀ image rest, ([.tick] : List HostOp) ≠ .reset image :: rest :=
  ⟨_, rfl, by decide, by intro image rest h; cases h⟩

/-- OtherInstructionsIgnoreInputs. -/
theorem test_witness_no_input : Instr.readsInput .cls = false ∧ Instr.readsInput (.drw 1 2 5) = false := by decide

/-- PcStaysEven: a jump and a JP V0 to even addresses, from the reset state. -/
theorem test_witness_even : ∃ t u, exec (.jp 0x300) State.reset = .next t ∧ exec (.jpV0 0x300) State.reset = .next u ∧
    State.reset.pc.toNat % 2 = 0 ∧ (∀ k : Fin 16, State.reset.stack[k].toNat % 2 = 0) ∧
    (∀ n, Instr.jp 0x300 = .jp n ∨ Instr.jp 0x300 = .call n → n.toNat % 2 = 0) ∧
    (∀ n, Instr.jpV0 0x300 = .jpV0 n → ((State.reset.getV 0#4).toNat + n.toNat) % 2 = 0) := by
  refine ⟨_, _, rfl, rfl, by decide, by decide, ?_, ?_⟩
  · rintro n (h | h)
    · cases h; decide
    · cases h
  · intro n h; cases h; decide

/-- SelfJumpIsFixedPoint: V-JP-2. -/
theorem test_witness_self_jump : let s := put 0x1200 State.reset
    s.halt = .running ∧ s.stepsNext = true ∧ s.pc.toNat = (0x200#12 : Addr12).toNat ∧
    s.fetch = .word (0x1#4 ++ 0x200#12) := by decide

/-- StepKeepsBounds: a machine that exists, meets the invariant and steps. -/
theorem test_witness_step_keeps : (put 0x1200 State.reset).Inv ∧ (put 0x1200 State.reset).constructed = true ∧
    ∃ t, step (put 0x1200 State.reset) = .next t := ⟨fun _ => ⟨by decide, by decide, by decide⟩, by decide, _, rfl⟩

end Sys2Proof.Tests
end

section
/-! PROOFS. The four skips on registers and literals (spec/40_control_transfer.md R105 to R109). -/

namespace Sys2Proof

/-! ### The words of the four skips (30 R74) -/

theorem decode_encode_seImm (x : Nibble) (nn : Byte) : decode (encode (.seImm x nn)) = .instr (.seImm x nn) := by
  simp [encode, decode]

theorem decode_encode_sneImm (x : Nibble) (nn : Byte) : decode (encode (.sneImm x nn)) = .instr (.sneImm x nn) := by
  simp [encode, decode]

theorem decode_encode_seReg (x y : Nibble) : decode (encode (.seReg x y)) = .instr (.seReg x y) := by
  simp [encode, decode]

theorem decode_encode_sneReg (x y : Nibble) : decode (encode (.sneReg x y)) = .instr (.sneReg x y) := by
  simp [encode, decode]

end Sys2Proof

namespace Sys2Proof.Machine

/-! ### What a skip answers (40 R109) -/

theorem skipWhen_pc (taken : Bool) (s : State) :
    (skipWhen taken s).pc = if taken then s.pc + 4#16 else s.pc + 2#16 := by
  have twoPlusTwo : s.pc + 2#16 + 2#16 = s.pc + 4#16 := BitVec.add_assoc _ _ _
  rw [skipWhen_eq, twoPlusTwo, State.jump]

/-- An instruction whose meaning is a skip, taken exactly when `p` holds, puts PC at the instruction plus 4 when `p`
holds and plus 2 otherwise, and keeps every other piece of state. -/
theorem exec_skip {i : Instr} {s : State} {taken : Bool} {p : Prop} [Decidable p]
    (hexec : exec i s = .next (skipWhen taken s)) (htaken : taken = true ↔ p) :
    ∃ t, exec i s = .next t ∧ FrameBut [.pc] s t ∧ t.pc = if p then s.pc + 4#16 else s.pc + 2#16 :=
  ⟨_, hexec, skipWhen_frame taken s, by simp only [skipWhen_pc, htaken]⟩

end Sys2Proof.Machine

open Sys2Proof Sys2Proof.Machine

/-- Settles O23: each word is the encoder's, and each meaning is a skip whose flag is the rule's condition. -/
theorem skipsOnImmediate : Obligations.SkipsOnImmediate :=
  ⟨fun x nn s => ⟨decode_encode_seImm x nn, exec_skip (exec_seImm x nn s) beq_iff_eq⟩,
   fun x nn s => ⟨decode_encode_sneImm x nn, exec_skip (exec_sneImm x nn s) bne_iff_ne⟩⟩

/-- Settles O24: as O23, with the second register in the literal's place. -/
theorem skipsOnRegister : Obligations.SkipsOnRegister :=
  ⟨fun x y s => ⟨decode_encode_seReg x y, exec_skip (exec_seReg x y s) beq_iff_eq⟩,
   fun x y s => ⟨decode_encode_sneReg x y, exec_skip (exec_sneReg x y s) bne_iff_ne⟩⟩

end

section
/-! PROOFS. The two instructions with a literal operand that write one register (spec/41_alu.md R123, R124). -/

namespace Sys2Proof

/-! ### The words of the two literal forms (30 R74) -/

theorem decode_encode_ldImm (x : Nibble) (nn : Byte) : decode (encode (.ldImm x nn)) = .instr (.ldImm x nn) := by
  simp [encode, decode]

theorem decode_encode_addImm (x : Nibble) (nn : Byte) : decode (encode (.addImm x nn)) = .instr (.addImm x nn) := by
  simp [encode, decode]

end Sys2Proof

namespace Sys2Proof.Machine

/-! ### What a register write answers -/

/-- An instruction whose meaning is the write of `b` to V[x] leaves `b` there and PC at the instruction plus 2, and keeps
every other piece of state: VF too, unless `x` is 15. -/
theorem exec_writeReg {i : Instr} {s : State} {x : Nibble} {b : Byte} (hexec : exec i s = .next (writeReg x b s)) :
    ∃ t, exec i s = .next t ∧ t.getV x = b ∧ t.pc = s.pc + 2#16 ∧ FrameBut [.reg x, .pc] s t :=
  ⟨_, hexec, by rw [writeReg_getV, if_pos rfl], writeReg_pc x b s, writeReg_frame x b s⟩

end Sys2Proof.Machine

open Sys2Proof Sys2Proof.Machine

/-- Settles O29: each word is the encoder's, and each meaning is one register write, of the literal or of the sum of two
bytes, which wraps modulo 256. -/
theorem immediateLoadsAndAdds : Obligations.ImmediateLoadsAndAdds := by
  refine ⟨fun x nn s => ⟨decode_encode_ldImm x nn, exec_writeReg (exec_ldImm x nn s)⟩,
    fun x nn s => ⟨decode_encode_addImm x nn, ?_⟩⟩
  obtain ⟨t, hexec, hsum, hpc, hframe⟩ := exec_writeReg (exec_addImm x nn s)
  exact ⟨t, hexec, by rw [hsum, BitVec.toNat_add], hpc, hframe⟩

end

section
/-! PROOFS. The instruction that writes a literal to the index register (spec/42_index_memory.md R150). -/

namespace Sys2Proof

/-! ### The word of LD I (30 R74) -/

theorem decode_encode_ldI (nnn : Addr12) : decode (encode (.ldI nnn)) = .instr (.ldI nnn) := by
  simp [encode, decode]

end Sys2Proof

namespace Sys2Proof.Machine

/-! ### What an index write leaves (30 R73) -/

/-- A widened literal keeps its value, so it is at most 0x0FFF. -/
@[simp] theorem zextAddr_toNat (nnn : Addr12) : (zextAddr nnn).toNat = nnn.toNat :=
  BitVec.toNat_setWidth_of_le (by decide)

/-- A write of I touches I and, by the fetch advance, PC. -/
theorem writeIndex_frame (w : Word) (s : State) : FrameBut [.index, .pc] s { s.advance with i := w } := by
  intro p hp
  simp only [List.mem_cons, List.not_mem_nil, or_false, not_or] at hp
  cases p with
  | index => exact absurd rfl hp.1
  | pc => exact absurd rfl hp.2
  | schedule => exact ⟨rfl, rfl⟩
  | _ => rfl

end Sys2Proof.Machine

open Sys2Proof Sys2Proof.Machine

/-- Settles O35: the word is the encoder's, and the meaning is one write of I, of the literal widened to 16 bits. -/
theorem loadIndex : Obligations.LoadIndex :=
  fun nnn s => ⟨decode_encode_ldI nnn, _, exec_ldI nnn s, zextAddr_toNat nnn, State.advance_pc s,
    writeIndex_frame (zextAddr nnn) s⟩

end

section
/-! PROOFS. The instruction that clears the display (spec/43_display.md R171). -/

namespace Sys2Proof

/-! ### The word of CLS (30 R74) -/

theorem decode_encode_cls : decode (encode .cls) = .instr .cls := by decide

end Sys2Proof

namespace Sys2Proof.Machine

/-! ### What a display write leaves (43 R171) -/

/-- A write of the whole display and of DIRTY touches the cells, DIRTY and, by the fetch advance, PC. -/
theorem writeDisplay_frame (d : Display) (dirty : Bool) (s : State) :
    Frame (fun p => p = .pc ∨ p = .dirty ∨ ∃ r c, p = .cell r c) s { s.advance with disp := d, dirty := dirty } := by
  intro p hp
  simp only [not_or] at hp
  obtain ⟨notPc, notDirty, notCell⟩ := hp
  cases p with
  | pc => exact absurd rfl notPc
  | dirty => exact absurd rfl notDirty
  | cell r c => exact absurd ⟨r, c, rfl⟩ notCell
  | schedule => exact ⟨rfl, rfl⟩
  | _ => rfl

end Sys2Proof.Machine

open Sys2Proof Sys2Proof.Machine

/-- Settles O43: the word is the encoder's, and the meaning is one write of the display and DIRTY, of the blank display and
of `true` whatever the display held. -/
theorem clearScreen : Obligations.ClearScreen :=
  ⟨decode_encode_cls, fun s => ⟨_, exec_cls s, Display.cell_blank, rfl, State.advance_pc s,
    writeDisplay_frame Display.blank true s⟩⟩

end

section
/-! PROOFS. The key wait and the timer transfers (spec/44_keypad_timers.md R187 to R190). -/

namespace Sys2Proof

/-! ### The words of the key wait and of the timer transfers (30 R74) -/

theorem decode_encode_ldVxK (x : Nibble) : decode (encode (.ldVxK x)) = .instr (.ldVxK x) := by
  simp [encode, decode, decodeClassF]

theorem decode_encode_ldVxDt (x : Nibble) : decode (encode (.ldVxDt x)) = .instr (.ldVxDt x) := by
  simp [encode, decode, decodeClassF]

theorem decode_encode_ldDtVx (x : Nibble) : decode (encode (.ldDtVx x)) = .instr (.ldDtVx x) := by
  simp [encode, decode, decodeClassF]

theorem decode_encode_ldStVx (x : Nibble) : decode (encode (.ldStVx x)) = .instr (.ldStVx x) := by
  simp [encode, decode, decodeClassF]

end Sys2Proof

namespace Sys2Proof.Machine

/-! ### The scan of the keys in index order (44 R187) -/

/-- A key that is down, with every key of a lower index up, is the one the scan finds. -/
theorem lowestKey_eq_some {keys : Keys} {k : Fin 16} (down : keys[k] = true)
    (up : ∀ j : Fin 16, j < k → keys[j] = false) : lowestKey keys = some k := by
  refine List.find?_eq_some_iff_getElem.2 ⟨down, k.val, by simp, by simp, fun j hj => ?_⟩
  simpa using up ⟨j, hj.trans k.isLt⟩ hj

/-- With every key up the scan finds none. -/
theorem lowestKey_eq_none {keys : Keys} (up : ∀ k : Fin 16, keys[k] = false) : lowestKey keys = none :=
  List.find?_eq_none.2 fun k _ => by simp [up k]

/-- With a key down the wait is a register write of the lowest index. -/
theorem exec_ldVxK_of_lowestKey_eq_some {s : State} {k : Fin 16} (x : Nibble) (h : lowestKey s.keys = some k) :
    exec (.ldVxK x) s = .next (writeReg x (BitVec.ofNat 8 k.val) s) := by
  rw [exec_ldVxK, execLdVxK, h]

/-- With no key down the rewind undoes the fetch advance: the next state is the state itself. -/
theorem exec_ldVxK_of_lowestKey_eq_none {s : State} (x : Nibble) (h : lowestKey s.keys = none) :
    exec (.ldVxK x) s = .next s := by
  have rewind : s.advance.jump (s.advance.pc - 2#16) = s := by
    rw [State.advance_pc, BitVec.add_sub_cancel, State.advance_eq_jump, State.jump_jump, State.jump]
  rw [exec_ldVxK, execLdVxK, h]
  exact congrArg _ rewind

/-- A state agrees with itself on every piece. -/
theorem FrameBut.refl (ps : List Piece) (s : State) : FrameBut ps s s := by
  intro p _
  cases p with
  | schedule => exact ⟨rfl, rfl⟩
  | _ => rfl

/-! ### What a timer write leaves (44 R189, R190) -/

/-- A write of DT touches DT and, by the fetch advance, PC. -/
theorem writeDelay_frame (b : Byte) (s : State) : FrameBut [.delay, .pc] s { s.advance with dt := b } := by
  intro p hp
  simp only [List.mem_cons, List.not_mem_nil, or_false, not_or] at hp
  obtain ⟨notDelay, notPc⟩ := hp
  cases p with
  | delay => exact absurd rfl notDelay
  | pc => exact absurd rfl notPc
  | schedule => exact ⟨rfl, rfl⟩
  | _ => rfl

/-- A write of ST touches ST and, by the fetch advance, PC. -/
theorem writeSound_frame (b : Byte) (s : State) : FrameBut [.sound, .pc] s { s.advance with st := b } := by
  intro p hp
  simp only [List.mem_cons, List.not_mem_nil, or_false, not_or] at hp
  obtain ⟨notSound, notPc⟩ := hp
  cases p with
  | sound => exact absurd rfl notSound
  | pc => exact absurd rfl notPc
  | schedule => exact ⟨rfl, rfl⟩
  | _ => rfl

/-! ### Which instructions change a timer (44 R189, R190) -/

/-- Both timers of `t` are those of `s`. -/
def SameTimers (s t : State) : Prop := t.dt = s.dt ∧ t.st = s.st

/-- A frame that names neither timer keeps both. -/
theorem FrameBut.sameTimers {ps : List Piece} {s t : State} (h : FrameBut ps s t) (hdelay : .delay ∉ ps)
    (hsound : .sound ∉ ps) : SameTimers s t := ⟨h .delay hdelay, h .sound hsound⟩

theorem raise_sameTimers (s : State) (c : FatalCondition) : SameTimers s (s.raise c) :=
  ⟨State.raise_dt s c, State.raise_st s c⟩

theorem skipWhen_sameTimers (taken : Bool) (s : State) : SameTimers s (skipWhen taken s) :=
  (skipWhen_frame taken s).sameTimers (by decide) (by decide)

theorem skipOnKey_sameTimers (x : Nibble) (down : Bool) (s : State) : SameTimers s (skipOnKey x down s) := by
  obtain ⟨b, h⟩ | ⟨taken, h⟩ := skipOnKey_cases x down s
  · rw [h]; exact raise_sameTimers s _
  · rw [h]; exact skipWhen_sameTimers taken s

theorem checked_sameTimers {s access : State} (base len : Nat) (h : SameTimers s access) :
    SameTimers s (s.checked base len access) := by
  obtain ⟨a, hc⟩ | hc := checked_cases s base len access
  · rw [hc]; exact raise_sameTimers s _
  · rw [hc]; exact h

theorem setVs_sameTimers (k : Nat) (bs : List Byte) (s : State) : SameTimers s (setVs k bs s) := by
  obtain ⟨w, h⟩ := setVs_eq bs k s
  rw [h]; exact ⟨rfl, rfl⟩

theorem exec_ret_sameTimers (s : State) : ∃ t, exec .ret s = .next t ∧ SameTimers s t := by
  by_cases empty : s.sp.val = 0
  · exact ⟨_, execRet_empty empty, raise_sameTimers s _⟩
  · obtain ⟨t, hret, ht, -⟩ := execRet_some (s := s) (k := ⟨s.sp.val - 1, by omega⟩) (by simp only; omega)
    exact ⟨_, hret, by rw [ht]; exact ⟨rfl, rfl⟩⟩

theorem exec_call_sameTimers (nnn : Addr12) (s : State) : ∃ t, exec (.call nnn) s = .next t ∧ SameTimers s t := by
  by_cases room : s.sp.val < 16
  · obtain ⟨t, hcall, ht, -⟩ := execCall_room nnn room
    exact ⟨_, hcall, by rw [ht]; exact ⟨rfl, rfl⟩⟩
  · exact ⟨_, execCall_full nnn (by omega), raise_sameTimers s _⟩

theorem exec_ldVxK_sameTimers (x : Nibble) (s : State) : ∃ t, exec (.ldVxK x) s = .next t ∧ SameTimers s t := by
  cases h : lowestKey s.keys with
  | none => exact ⟨s, exec_ldVxK_of_lowestKey_eq_none x h, rfl, rfl⟩
  | some k => exact ⟨_, exec_ldVxK_of_lowestKey_eq_some x h, rfl, rfl⟩

/-- Every instruction but the two timer writes keeps both timers. -/
theorem exec_sameTimers {i : Instr} (notDelay : ¬ ∃ x, i = .ldDtVx x) (notSound : ¬ ∃ x, i = .ldStVx x) (s : State) :
    ∃ t, exec i s = .next t ∧ SameTimers s t := by
  cases i with
  | ldDtVx x => exact absurd ⟨x, rfl⟩ notDelay
  | ldStVx x => exact absurd ⟨x, rfl⟩ notSound
  | ret => exact exec_ret_sameTimers s
  | call nnn => exact exec_call_sameTimers nnn s
  | seImm x nn => exact ⟨_, exec_seImm x nn s, skipWhen_sameTimers _ s⟩
  | sneImm x nn => exact ⟨_, exec_sneImm x nn s, skipWhen_sameTimers _ s⟩
  | seReg x y => exact ⟨_, exec_seReg x y s, skipWhen_sameTimers _ s⟩
  | sneReg x y => exact ⟨_, exec_sneReg x y s, skipWhen_sameTimers _ s⟩
  | skp x => exact ⟨_, exec_skp x s, skipOnKey_sameTimers x _ s⟩
  | sknp x => exact ⟨_, exec_sknp x s, skipOnKey_sameTimers x _ s⟩
  | ldVxK x => exact exec_ldVxK_sameTimers x s
  | drw x y n => exact ⟨_, exec_drw x y n s, checked_sameTimers _ _ ⟨rfl, rfl⟩⟩
  | ldB x => exact ⟨_, exec_ldB x s, checked_sameTimers _ _ ⟨rfl, rfl⟩⟩
  | ldMemVx x => exact ⟨_, exec_ldMemVx x s, checked_sameTimers _ _ ⟨rfl, rfl⟩⟩
  | ldVxMem x => exact ⟨_, exec_ldVxMem x s, checked_sameTimers _ _ (setVs_sameTimers _ _ s.advance)⟩
  | _ => exact ⟨_, rfl, rfl, rfl⟩

/-- An instruction that changes DT is Fx15, one that changes ST is Fx18: each of the two leaves the other's timer. -/
theorem exec_timer_changed {i : Instr} {s t : State} (hexec : exec i s = .next t) :
    (t.dt ≠ s.dt → ∃ x, i = .ldDtVx x) ∧ (t.st ≠ s.st → ∃ x, i = .ldStVx x) := by
  by_cases delay : ∃ x, i = .ldDtVx x
  · obtain ⟨x, rfl⟩ := delay
    obtain rfl := Host.Outcome.next.inj hexec
    exact ⟨fun _ => ⟨x, rfl⟩, fun changed => absurd rfl changed⟩
  · by_cases sound : ∃ x, i = .ldStVx x
    · obtain ⟨x, rfl⟩ := sound
      obtain rfl := Host.Outcome.next.inj hexec
      exact ⟨fun changed => absurd rfl changed, fun _ => ⟨x, rfl⟩⟩
    · obtain ⟨u, hu, sameDelay, sameSound⟩ := exec_sameTimers delay sound s
      obtain rfl := Host.Outcome.next.inj (hu.symm.trans hexec)
      exact ⟨fun changed => absurd sameDelay changed, fun changed => absurd sameSound changed⟩

end Sys2Proof.Machine

open Sys2Proof Sys2Proof.Machine

/-- Settles O48: the word is the encoder's; a lowest key makes the meaning a register write of its index, and no key makes
it the state itself. -/
theorem waitKeyTakesLowestKey : Obligations.WaitKeyTakesLowestKey := by
  refine fun x s => ⟨decode_encode_ldVxK x, fun k down up => ?_, fun up => ?_⟩
  · obtain ⟨t, hexec, hindex, hpc, hframe⟩ :=
      exec_writeReg (exec_ldVxK_of_lowestKey_eq_some x (lowestKey_eq_some down up))
    have byte : k.val % 2 ^ 8 = k.val := Nat.mod_eq_of_lt (by omega)
    exact ⟨t, hexec, by rw [hindex, BitVec.toNat_ofNat, byte], hpc, hframe⟩
  · exact ⟨s, exec_ldVxK_of_lowestKey_eq_none x (lowestKey_eq_none up), FrameBut.refl [] s⟩

/-- Settles O49: each word is the encoder's, and each meaning is one write of V[x], DT or ST; the two timer writes are the
only instructions that do not keep both timers. -/
theorem timerTransfers : Obligations.TimerTransfers :=
  ⟨fun x s => ⟨decode_encode_ldVxDt x, exec_writeReg (exec_ldVxDt x s),
    decode_encode_ldDtVx x, ⟨_, exec_ldDtVx x s, rfl, State.advance_pc s, writeDelay_frame _ s⟩,
    decode_encode_ldStVx x, ⟨_, exec_ldStVx x s, rfl, rfl, State.advance_pc s, writeSound_frame _ s⟩⟩,
   fun _ _ _ => exec_timer_changed⟩

end

section
/-! PROOFS. The host operation that hands over a frame (spec/60_exceptions.md R219). -/

namespace Sys2Proof.Machine

/-! ### What the end of a host operation leaves (60 R223) -/

/-- What an operation leaves alone, its end leaves alone too, but for the schedule. -/
theorem FrameBut.endOp {ps : List Piece} {s t : State} (h : FrameBut ps s t) :
    FrameBut (ps ++ [.schedule]) s t.endOp := by
  intro p hp
  simp only [List.mem_append, List.mem_singleton, not_or] at hp
  obtain ⟨unchanged, notSchedule⟩ := hp
  cases p with
  | schedule => exact absurd rfl notSchedule
  | _ => exact h _ unchanged

/-! ### What CONSUME_FRAME answers (60 R219) -/

@[simp] theorem State.consumeFrame_cells (s : State) : s.consumeFrame.1 = s.disp := rfl
@[simp] theorem State.consumeFrame_dirty (s : State) : s.consumeFrame.2.dirty = false := rfl
@[simp] theorem State.consumeFrame_host (s : State) : s.consumeFrame.2.host = s.host := rfl

/-- The handoff touches DIRTY alone: the cells the host receives stay on the display. -/
theorem State.consumeFrame_frame (s : State) : FrameBut [.dirty] s s.consumeFrame.2 := by
  intro p hp
  cases p with
  | dirty => exact absurd (List.mem_singleton_self _) hp
  | schedule => exact ⟨rfl, rfl⟩
  | _ => rfl

/-- Where CONSUME_FRAME comes next, the step is the handoff and the end of the operation. -/
theorem step_eq_consumeFrame {s : State} {rest : List HostOp} (h : s.host = .consumeFrame :: rest) :
    step s = .next s.consumeFrame.2.endOp := by
  rw [step, hostStep, h]

end Sys2Proof.Machine

open Sys2Proof Sys2Proof.Machine

/-- Settles O17: the step is the handoff, whose frame is DIRTY alone, and the end of the operation, which takes
CONSUME_FRAME off the schedule. -/
theorem consumeFrameClearsDirty : Obligations.ConsumeFrameClearsDirty := by
  intro s rest hnext
  have popped : s.consumeFrame.2.endOp.host = rest := by
    rw [State.endOp_host, State.consumeFrame_host, hnext, List.tail_cons]
  exact ⟨s.consumeFrame_cells, s.consumeFrame.2.endOp, step_eq_consumeFrame hnext, s.consumeFrame_dirty, popped,
    s.consumeFrame_frame.endOp⟩

end

section
/-! PROOFS. Memory after the host operation that loads a program (spec/70_reset_and_hazards.md R241). -/

namespace Sys2Proof.Machine

/-! ### Memory before an image is loaded: the font table and zeros (70 R241) -/

theorem resetByte_font {j : Nat} (hj : j < 80) : some (resetByte (0x050 + j)) = fontTable[j]? := by
  have inTable : j < fontTable.length := hj
  have inFont : Config.fontBase ≤ 0x050 + j ∧ 0x050 + j ≤ Config.fontEnd := by
    rw [fontBase_eq, fontEnd_eq]; omega
  rw [resetByte, if_pos inFont, fontBase_eq, Nat.add_sub_cancel_left, List.getElem?_eq_getElem inTable,
    Option.getD_some]

theorem resetByte_eq_zero {a : Nat} (ha : ¬ (0x050 ≤ a ∧ a ≤ 0x09F)) : resetByte a = 0#8 := if_neg ha

theorem resetByte_digit0 : (List.range 5).map (fun j => resetByte (0x050 + j)) = Config.fontDigit0 := by decide

/-! ### Memory with an image loaded (70 R241) -/

/-- An image of at most 3584 bytes ends below 4096, so every one of its bytes is stored. -/
theorem loadImage_read {image : List Byte} (fits : image.length ≤ 3584) (a : Nat) :
    (loadImage image).read a =
      if 0x200 ≤ a ∧ a < 0x200 + image.length then (image[a - 0x200]?).getD 0#8 else resetByte a :=
  Memory.read_writeBytes image 0x200 a Memory.wf_reset (by omega)

theorem loadImage_read_inside {image : List Byte} (fits : image.length ≤ 3584) {k : Nat} (hk : k < image.length) :
    (loadImage image).read (0x200 + k) = image[k] := by
  rw [loadImage_read fits, if_pos (by omega), Nat.add_sub_cancel_left, List.getElem?_eq_getElem hk, Option.getD_some]

theorem loadImage_read_outside {image : List Byte} (fits : image.length ≤ 3584) {a : Nat}
    (outside : ¬ (0x200 ≤ a ∧ a < 0x200 + image.length)) : (loadImage image).read a = resetByte a := by
  rw [loadImage_read fits, if_neg outside]

/-- The font table ends below 0x200, so no image reaches it. -/
theorem loadImage_read_font {image : List Byte} (fits : image.length ≤ 3584) {j : Nat} (hj : j < 80) :
    (loadImage image).read (0x050 + j) = resetByte (0x050 + j) :=
  loadImage_read_outside fits (by omega)

/-! ### What RESET answers (70 R240) -/

/-- An image of at most 3584 bytes is accepted: every piece of state takes its reset value, but for memory and the
schedule. -/
theorem State.resetWith_of_le {image : List Byte} (fits : image.length ≤ 3584) (s : State) :
    s.resetWith image = { State.reset with mem := loadImage image, host := s.host, opNo := s.opNo } :=
  if_neg (Nat.not_lt.2 fits)

/-- Where RESET comes next, the step is the load and the end of the operation. -/
theorem step_eq_reset {s : State} {image : List Byte} {rest : List HostOp} (h : s.host = .reset image :: rest) :
    step s = .next (s.resetWith image).endOp := by
  rw [step, hostStep, h]

end Sys2Proof.Machine

open Sys2Proof Sys2Proof.Machine

/-- Settles O19: the memory of the next state is the loaded image's, which reads as the image inside its addresses and
as the font table and zeros outside them; the font table lies outside. -/
theorem resetLoadsImage : Obligations.ResetLoadsImage := by
  intro s image rest hnext fits
  have accepted := State.resetWith_of_le fits s
  have loaded : (s.resetWith image).endOp.mem = loadImage image := by rw [State.endOp_mem, accepted]
  have popped : (s.resetWith image).endOp.host = rest := by rw [State.endOp_host, accepted, hnext, List.tail_cons]
  refine ⟨(s.resetWith image).endOp, step_eq_reset hnext, popped, ?_⟩
  rw [loaded]
  refine ⟨fun k hk => loadImage_read_inside fits hk, fun j hj => ?font, ?digit0, fun a notFont outside => ?zero⟩
  case font => rw [loadImage_read_font fits hj, resetByte_font hj]
  case digit0 =>
    have glyph : ∀ j ∈ List.range 5, (loadImage image).read (0x050 + j) = resetByte (0x050 + j) := fun j hj =>
      loadImage_read_font fits ((List.mem_range.1 hj).trans (by decide))
    exact (List.map_congr_left glyph).trans resetByte_digit0
  case zero => rw [loadImage_read_outside fits outside, resetByte_eq_zero notFont]

end

section
/-! PROOFS. The encoder and the decoder undo each other, and the opcode map says which words are mapped
(spec/30_encoding.md R74, R75, R77). -/

namespace Sys2Proof

/-! ### An instruction is read back from its own word (30 R75) -/

theorem decode_encode (i : Instr) : decode (encode i) = .instr i := by
  cases i with
  | cls => exact decode_encode_cls
  | ret => decide
  | jp | call | jpV0 | ldI => simp [encode, decode]
  | seImm | sneImm | ldImm | addImm | rnd => simp [encode, decode]
  | seReg | sneReg | drw => simp [encode, decode]
  | ldReg | orReg | andReg | xorReg | addReg | subReg | shr | subnReg | shl => simp [encode, decode, decodeClass8]
  | skp | sknp => simp [encode, decode, decodeClassE]
  | ldVxDt | ldVxK | ldDtVx | ldStVx | addI | ldF | ldB | ldMemVx | ldVxMem => simp [encode, decode, decodeClassF]

/-! ### A word that decodes to an instruction is that instruction's word (30 R71, R75) -/

theorem classOf_eq {w : Word} (c : Nibble) (h : (classOf w).toNat = c.toNat) : classOf w = c :=
  BitVec.eq_of_toNat_eq h

theorem packNNN_of_class {w : Word} {c : Nibble} (hc : classOf w = c) : packNNN c (fieldNNN w) = w := by
  rw [← hc, packNNN_fields]

theorem packXNN_of_class {w : Word} {c : Nibble} (hc : classOf w = c) : packXNN c (fieldX w) (fieldNN w) = w := by
  rw [← hc, packXNN_fields]

theorem packXNN_of_subcode {w : Word} {c : Nibble} {nn : Byte} (hc : classOf w = c) (hnn : fieldNN w = nn) :
    packXNN c (fieldX w) nn = w := by
  rw [← hnn, packXNN_of_class hc]

theorem packXYN_of_class {w : Word} {c : Nibble} (hc : classOf w = c) :
    packXYN c (fieldX w) (fieldY w) (fieldN w) = w := by
  rw [← hc, packXYN_fields]

theorem packXYN_of_subcode {w : Word} {c n : Nibble} (hc : classOf w = c) (hn : (fieldN w).toNat = n.toNat) :
    packXYN c (fieldX w) (fieldY w) n = w := by
  rw [← BitVec.eq_of_toNat_eq hn, packXYN_of_class hc]

/-- The list of 30 R77: a class 0 word but 00E0 and 00EE, and in the classes with a subcode every other subcode. -/
def Unlisted (w : Word) : Prop :=
  (classOf w = 0x0#4 ∧ w ≠ 0x00E0#16 ∧ w ≠ 0x00EE#16) ∨
  (classOf w = 0x5#4 ∧ fieldN w ≠ 0#4) ∨
  (classOf w = 0x8#4 ∧ (fieldN w).toNat ∈ [0x8, 0x9, 0xA, 0xB, 0xC, 0xD, 0xF]) ∨
  (classOf w = 0x9#4 ∧ fieldN w ≠ 0#4) ∨
  (classOf w = 0xE#4 ∧ (fieldNN w).toNat ∉ [0x9E, 0xA1]) ∨
  (classOf w = 0xF#4 ∧ (fieldNN w).toNat ∉ [0x07, 0x0A, 0x15, 0x18, 0x1E, 0x29, 0x33, 0x55, 0x65])

/-- A decoding accounts for its word: it is the instruction whose word this is, or UNKNOWN with the word itself, which is
then one of 30 R77's list. -/
def Accounts (w : Word) : Decoded → Prop
  | .instr i => encode i = w
  | .unknown w' => w' = w ∧ Unlisted w

theorem decodeClass0_accounts {w : Word} (hc : classOf w = 0x0#4) : Accounts w (decodeClass0 w) := by
  unfold decodeClass0
  split_ifs with hcls hret
  · exact hcls.symm
  · exact hret.symm
  · exact ⟨rfl, .inl ⟨hc, hcls, hret⟩⟩

theorem decodeClass8_accounts {w : Word} (hc : classOf w = 0x8#4) : Accounts w (decodeClass8 w) := by
  unfold decodeClass8
  split
  case h_10 =>
    have otherSubcode : (fieldN w).toNat ∈ [0x8, 0x9, 0xA, 0xB, 0xC, 0xD, 0xF] := by
      have := (fieldN w).isLt
      simp only [List.mem_cons, List.not_mem_nil, imp_false] at *
      omega
    exact ⟨rfl, .inr (.inr (.inl ⟨hc, otherSubcode⟩))⟩
  all_goals exact packXYN_of_subcode hc ‹_›

theorem decodeClassE_accounts {w : Word} (hc : classOf w = 0xE#4) : Accounts w (decodeClassE w) := by
  unfold decodeClassE
  split_ifs
  case neg =>
    have otherSubcode : (fieldNN w).toNat ∉ [0x9E, 0xA1] := by simp_all [← BitVec.toNat_inj]
    exact ⟨rfl, .inr (.inr (.inr (.inr (.inl ⟨hc, otherSubcode⟩))))⟩
  all_goals exact packXNN_of_subcode hc ‹_›

theorem decodeClassF_accounts {w : Word} (hc : classOf w = 0xF#4) : Accounts w (decodeClassF w) := by
  unfold decodeClassF
  split_ifs
  case neg =>
    have otherSubcode : (fieldNN w).toNat ∉ [0x07, 0x0A, 0x15, 0x18, 0x1E, 0x29, 0x33, 0x55, 0x65] := by
      simp_all [← BitVec.toNat_inj]
    exact ⟨rfl, .inr (.inr (.inr (.inr (.inr ⟨hc, otherSubcode⟩))))⟩
  all_goals exact packXNN_of_subcode hc ‹_›

theorem decode_accounts (w : Word) : Accounts w (decode w) := by
  unfold decode
  split
  case h_1 => exact decodeClass0_accounts (classOf_eq _ ‹_›)
  case h_2 | h_3 | h_11 | h_12 => exact packNNN_of_class (classOf_eq _ ‹_›)
  case h_4 | h_5 | h_7 | h_8 | h_13 => exact packXNN_of_class (classOf_eq _ ‹_›)
  case h_6 =>
    split_ifs with hn
    · exact packXYN_of_subcode (classOf_eq _ ‹_›) (congrArg BitVec.toNat hn)
    · exact ⟨rfl, .inr (.inl ⟨classOf_eq _ ‹_›, hn⟩)⟩
  case h_9 => exact decodeClass8_accounts (classOf_eq _ ‹_›)
  case h_10 =>
    split_ifs with hn
    · exact packXYN_of_subcode (classOf_eq _ ‹_›) (congrArg BitVec.toNat hn)
    · exact ⟨rfl, .inr (.inr (.inr (.inl ⟨classOf_eq _ ‹_›, hn⟩)))⟩
  case h_14 => exact packXYN_of_class (classOf_eq _ ‹_›)
  case h_15 => exact decodeClassE_accounts (classOf_eq _ ‹_›)
  case h_16 =>
    have lastClass : (classOf w).toNat = (0xF#4 : Nibble).toNat := by
      have := (classOf w).isLt
      simp only [BitVec.toNat_ofNat, imp_false] at *
      omega
    exact decodeClassF_accounts (classOf_eq _ lastClass)

theorem encode_of_decode {w : Word} {i : Instr} (h : decode w = .instr i) : encode i = w := by
  have account := decode_accounts w
  rwa [h] at account

/-- A word decodes to an instruction, or to UNKNOWN with the word itself, one of 30 R77's list. -/
theorem decode_cases (w : Word) : (∃ i, decode w = .instr i) ∨ (decode w = .unknown w ∧ Unlisted w) := by
  have account := decode_accounts w
  cases h : decode w with
  | instr i => exact .inl ⟨i, rfl⟩
  | unknown w' =>
    rw [h] at account
    obtain ⟨rfl, unlisted⟩ := account
    exact .inr ⟨rfl, unlisted⟩

/-! ### The rows of the opcode map (30 R74, R75) -/

/-- Two rows that differ in a bit both masks fix are not selected by one word. -/
theorem Row.not_disjoint {r q : Row} {w : Word} (hr : r.selects w = true) (hq : q.selects w = true) :
    r.disjoint q = false := by
  have hr : w &&& r.mask = r.pattern := beq_iff_eq.1 hr
  have hq : w &&& q.mask = q.pattern := beq_iff_eq.1 hq
  rw [Row.disjoint, bne_eq_false_iff_eq, ← hr, ← hq]
  ext b
  simp only [BitVec.getElem_and]
  grind

/-- In a list of pairwise disjoint rows a word selects at most one. -/
theorem rowsWf_unique {rows : List Row} (hwf : rowsWf rows = true) {r q : Row} {w : Word} (hr : r ∈ rows)
    (hq : q ∈ rows) (hrw : r.selects w = true) (hqw : q.selects w = true) : r = q := by
  induction rows with
  | nil => cases hr
  | cons p rest ih =>
    simp only [rowsWf, Bool.and_eq_true, List.all_eq_true] at hwf
    obtain ⟨⟨-, apart⟩, hrest⟩ := hwf
    have alone {q : Row} (hp : p.selects w = true) (hq : q.selects w = true) (hmem : q ∈ rest) : False := by
      simpa [Row.not_disjoint hp hq] using apart q hmem
    rcases List.mem_cons.1 hr with rfl | hr'
    · rcases List.mem_cons.1 hq with rfl | hq'
      · rfl
      · exact (alone hrw hqw hq').elim
    · rcases List.mem_cons.1 hq with rfl | hq'
      · exact (alone hqw hrw hr').elim
      · exact ih hrest hr' hq'

theorem opcodeMap_wf : rowsWf opcodeMap = true := by decide

/-- Every instruction's word is in its own row. -/
theorem encode_inRow : ∀ i : Instr, i.inRowOf (encode i) = true
  | .cls => Laws.RowMatch.cls
  | .ret => Laws.RowMatch.ret
  | .jp nnn => Laws.RowMatch.jp nnn
  | .call nnn => Laws.RowMatch.call nnn
  | .seImm x nn => Laws.RowMatch.seImm x nn
  | .sneImm x nn => Laws.RowMatch.sneImm x nn
  | .seReg x y => Laws.RowMatch.seReg x y
  | .ldImm x nn => Laws.RowMatch.ldImm x nn
  | .addImm x nn => Laws.RowMatch.addImm x nn
  | .ldReg x y => Laws.RowMatch.ldReg x y
  | .orReg x y => Laws.RowMatch.orReg x y
  | .andReg x y => Laws.RowMatch.andReg x y
  | .xorReg x y => Laws.RowMatch.xorReg x y
  | .addReg x y => Laws.RowMatch.addReg x y
  | .subReg x y => Laws.RowMatch.subReg x y
  | .shr x y => Laws.RowMatch.shr x y
  | .subnReg x y => Laws.RowMatch.subnReg x y
  | .shl x y => Laws.RowMatch.shl x y
  | .sneReg x y => Laws.RowMatch.sneReg x y
  | .ldI nnn => Laws.RowMatch.ldI nnn
  | .jpV0 nnn => Laws.RowMatch.jpV0 nnn
  | .rnd x nn => Laws.RowMatch.rnd x nn
  | .drw x y n => Laws.RowMatch.drw x y n
  | .skp x => Laws.RowMatch.skp x
  | .sknp x => Laws.RowMatch.sknp x
  | .ldVxDt x => Laws.RowMatch.ldVxDt x
  | .ldVxK x => Laws.RowMatch.ldVxK x
  | .ldDtVx x => Laws.RowMatch.ldDtVx x
  | .ldStVx x => Laws.RowMatch.ldStVx x
  | .addI x => Laws.RowMatch.addI x
  | .ldF x => Laws.RowMatch.ldF x
  | .ldB x => Laws.RowMatch.ldB x
  | .ldMemVx x => Laws.RowMatch.ldMemVx x
  | .ldVxMem x => Laws.RowMatch.ldVxMem x

theorem mapped_of_inRow {i : Instr} {w : Word} (h : i.inRowOf w = true) : mapped w = true := by
  obtain ⟨r, hr, h⟩ := List.any_eq_true.1 h
  exact List.any_eq_true.2 ⟨r, hr, (Bool.and_eq_true_iff.1 h).2⟩

theorem mapped_of_decode {w : Word} {i : Instr} (h : decode w = .instr i) : mapped w = true :=
  mapped_of_inRow (encode_of_decode h ▸ encode_inRow i)

/-! ### No row selects an unmapped word (30 R77) -/

theorem classOf_of_selects {r : Row} {w : Word} (hw : r.selects w = true) (full : classOf r.mask = 0xF#4) :
    classOf w = classOf r.pattern := by
  have masked : classOf (w &&& r.mask) = classOf w &&& classOf r.mask := BitVec.extractLsb'_and
  rw [← beq_iff_eq.1 hw, masked, full]
  exact BitVec.and_allOnes.symm

theorem fieldN_of_selects {r : Row} {w : Word} (hw : r.selects w = true) (full : fieldN r.mask = 0xF#4) :
    fieldN w = fieldN r.pattern := by
  have masked : fieldN (w &&& r.mask) = fieldN w &&& fieldN r.mask := BitVec.extractLsb'_and
  rw [← beq_iff_eq.1 hw, masked, full]
  exact BitVec.and_allOnes.symm

theorem fieldNN_of_selects {r : Row} {w : Word} (hw : r.selects w = true) (full : fieldNN r.mask = 0xFF#8) :
    fieldNN w = fieldNN r.pattern := by
  have masked : fieldNN (w &&& r.mask) = fieldNN w &&& fieldNN r.mask := BitVec.extractLsb'_and
  rw [← beq_iff_eq.1 hw, masked, full]
  exact BitVec.and_allOnes.symm

theorem eq_of_selects {r : Row} {w : Word} (hw : r.selects w = true) (full : r.mask = 0xFFFF#16) : w = r.pattern := by
  rw [← beq_iff_eq.1 hw, full]
  exact BitVec.and_allOnes.symm

/-- What 30 R77 reads off the map: every row fixes the class, and in the classes with a subcode the subcode too. -/
theorem opcodeMap_fixes : ∀ r ∈ opcodeMap, classOf r.mask = 0xF#4 ∧
    (classOf r.pattern = 0x0#4 → r.mask = 0xFFFF#16 ∧ (r.pattern = 0x00E0#16 ∨ r.pattern = 0x00EE#16)) ∧
    (classOf r.pattern = 0x5#4 ∨ classOf r.pattern = 0x9#4 → fieldN r.mask = 0xF#4 ∧ fieldN r.pattern = 0#4) ∧
    (classOf r.pattern = 0x8#4 → fieldN r.mask = 0xF#4 ∧
      (fieldN r.pattern).toNat ∉ [0x8, 0x9, 0xA, 0xB, 0xC, 0xD, 0xF]) ∧
    (classOf r.pattern = 0xE#4 → fieldNN r.mask = 0xFF#8 ∧ (fieldNN r.pattern).toNat ∈ [0x9E, 0xA1]) ∧
    (classOf r.pattern = 0xF#4 → fieldNN r.mask = 0xFF#8 ∧
      (fieldNN r.pattern).toNat ∈ [0x07, 0x0A, 0x15, 0x18, 0x1E, 0x29, 0x33, 0x55, 0x65]) := by decide

/-- No row selects a word of 30 R77's list: a row of the word's class would fix a subcode the word does not have. -/
theorem mapped_of_unlisted {w : Word} (h : Unlisted w) : mapped w = false := by
  refine Bool.eq_false_iff.2 fun hm => ?_
  obtain ⟨r, hr, hw⟩ := List.any_eq_true.1 hm
  obtain ⟨hclass, h0, h59, h8, hE, hF⟩ := opcodeMap_fixes r hr
  rw [Unlisted, classOf_of_selects hw hclass] at h
  obtain ⟨hc, notCls, notRet⟩ | ⟨hc, hn⟩ | ⟨hc, hn⟩ | ⟨hc, hn⟩ | ⟨hc, hnn⟩ | ⟨hc, hnn⟩ := h
  · obtain ⟨full, hp | hp⟩ := h0 hc
    · exact notCls (hp ▸ eq_of_selects hw full)
    · exact notRet (hp ▸ eq_of_selects hw full)
  · obtain ⟨full, hp⟩ := h59 (.inl hc)
    exact hn (hp ▸ fieldN_of_selects hw full)
  · obtain ⟨full, hp⟩ := h8 hc
    exact hp (fieldN_of_selects hw full ▸ hn)
  · obtain ⟨full, hp⟩ := h59 (.inr hc)
    exact hn (hp ▸ fieldN_of_selects hw full)
  · obtain ⟨full, hp⟩ := hE hc
    exact hnn (fieldNN_of_selects hw full ▸ hp)
  · obtain ⟨full, hp⟩ := hF hc
    exact hnn (fieldNN_of_selects hw full ▸ hp)

theorem decode_eq_unknown_iff (w : Word) : decode w = .unknown w ↔ Unlisted w := by
  obtain ⟨i, hi⟩ | ⟨hu, unlisted⟩ := decode_cases w
  · have mapped := mapped_of_decode hi
    refine ⟨fun h => ?_, fun h => ?_⟩
    · rw [hi] at h; cases h
    · rw [mapped_of_unlisted h] at mapped; cases mapped
  · exact ⟨fun _ => unlisted, fun _ => hu⟩

theorem mapped_eq_false_iff (w : Word) : mapped w = false ↔ Unlisted w := by
  refine ⟨fun h => ?_, mapped_of_unlisted⟩
  obtain ⟨i, hi⟩ | ⟨-, unlisted⟩ := decode_cases w
  · rw [mapped_of_decode hi] at h; cases h
  · exact unlisted

end Sys2Proof

open Sys2Proof Sys2Proof.Machine

/-- Settles O1: the word round trip, and the bytes of a word decode as the word whatever follows them. -/
theorem decodeEncodeRoundTrip : Obligations.DecodeEncodeRoundTrip :=
  fun i => ⟨decode_encode i, fun rest => by rw [encodeBytes, decodeBytes_wordBytes, decode_encode]⟩

/-- Settles O2: each arm of the decoder takes from the word the fields its format packs, so the packed fields are the word. -/
theorem encodeDecodeRoundTrip : Obligations.EncodeDecodeRoundTrip :=
  fun _ _ => encode_of_decode

/-- Settles O3: the map is a list of pairwise disjoint rows. -/
theorem opcodeRowsPairwiseDisjoint : Obligations.OpcodeRowsPairwiseDisjoint :=
  fun _ _ _ => rowsWf_unique opcodeMap_wf

/-- Settles O4: decoding to UNKNOWN and being selected by no row are each the same as standing in 30 R77's list, and a word
outside it decodes to an instruction. -/
theorem unmappedWordsAreUnknown : Obligations.UnmappedWordsAreUnknown := by
  refine fun w => ⟨(decode_eq_unknown_iff w).trans (mapped_eq_false_iff w).symm, fun mapped => ?_, mapped_eq_false_iff w⟩
  refine (decode_cases w).resolve_right fun ⟨_, unlisted⟩ => ?_
  rw [mapped_of_unlisted unlisted] at mapped
  cases mapped

/-- Settles O5: nine literal words. -/
theorem specWordsDecode : Obligations.SpecWordsDecode := by
  unfold Obligations.SpecWordsDecode
  decide

end

section
/-! PROOFS. Everything an instruction can do, said once, and which instruction writes which piece of state
(spec/10_state.md section 1, R21, R22; 20_memory.md R53). -/

namespace Sys2Proof.Machine

/-! ### The shapes of a next state -/

/-- `Effect s i t`: what exec of `i` at `s` may answer, up to the values it computes. The constructors name every piece of
state the instruction writes; a value that no invariant reads is left open. -/
inductive Effect (s : State) : Instr → State → Prop
  | raise (i : Instr) {c : FatalCondition} (hc : ∀ n, c ≠ .programTooLarge n) : Effect s i (s.raise c)
  | skip (i : Instr) (taken : Bool) : Effect s i (skipWhen taken s)
  | reg {i : Instr} {x : Nibble} (b : Byte) (hx : i.hasDest x = true) : Effect s i (writeReg x b s)
  | regFlag {i : Instr} {x : Nibble} (b f : Byte) (hx : i.hasDest x = true) (hf : i.writesFlag = true) :
      Effect s i (writeRegFlag x b f s)
  | wait (x : Nibble) : Effect s (.ldVxK x) s
  | jp (nnn : Addr12) : Effect s (.jp nnn) (s.advance.jump (zextAddr nnn))
  | jpV0 (nnn : Addr12) : Effect s (.jpV0 nnn) (s.advance.jump (zextByte (s.getV 0#4) + zextAddr nnn))
  | call (nnn : Addr12) (sp : Fin 17) {stack : Vector Word 16}
      (hstack : ∀ k : Fin 16, stack[k] = s.pc + 2#16 ∨ stack[k] = s.stack[k]) :
      Effect s (.call nnn) ({ s with sp := sp, stack := stack }.jump (zextAddr nnn))
  | ret (sp : Fin 17) (k : Fin 16) : Effect s .ret ({ s with sp := sp }.jump s.stack[k])
  | index {i : Instr} (w : Word) (hi : (∃ n, i = .ldI n) ∨ ∃ x, i = .ldF x) : Effect s i { s.advance with i := w }
  | indexFlag (x : Nibble) (w : Word) (f : Byte) : Effect s (.addI x) ({ s.advance with i := w }.setVF f)
  | delay (x : Nibble) (b : Byte) : Effect s (.ldDtVx x) { s.advance with dt := b }
  | sound (x : Nibble) (b : Byte) : Effect s (.ldStVx x) { s.advance with st := b }
  | cls : Effect s .cls { s.advance with disp := Display.blank, dirty := true }
  | draw (x y n : Nibble) (disp : Display) {dirty : Bool} (f : Byte) (hdirty : s.dirty = true → dirty = true) :
      Effect s (.drw x y n) ({ s.advance with disp := disp, dirty := dirty }.setVF f)
  | store {i : Instr} (bs : List Byte) (hi : (∃ x, i = .ldB x) ∨ ∃ x, i = .ldMemVx x) :
      Effect s i { s.advance with mem := s.mem.writeBytes s.base bs }
  | load (x : Nibble) {bs : List Byte} (hbs : bs.length = x.toNat + 1) :
      Effect s (.ldVxMem x) (setVs 0 bs s.advance)

theorem Effect.checked {i : Instr} {s access : State} (base len : Nat) (h : Effect s i access) :
    Effect s i (s.checked base len access) := by
  obtain ⟨a, hc⟩ | hc := checked_cases s base len access
  · rw [hc]; exact .raise i (fun _ => by simp)
  · rw [hc]; exact h

theorem Effect.skipOnKey (i : Instr) (x : Nibble) (down : Bool) (s : State) :
    Effect s i (skipOnKey x down s) := by
  obtain ⟨b, h⟩ | ⟨taken, h⟩ := skipOnKey_cases x down s
  · rw [h]; exact .raise i (fun _ => by simp)
  · rw [h]; exact .skip i taken

theorem exec_ret_effect (s : State) : ∃ t, exec .ret s = .next t ∧ Effect s .ret t := by
  by_cases empty : s.sp.val = 0
  · exact ⟨_, execRet_empty empty, .raise _ (fun _ => by simp)⟩
  · obtain ⟨t, hret, ht, -⟩ := execRet_some (s := s) (k := ⟨s.sp.val - 1, by omega⟩) (by simp only; omega)
    exact ⟨_, hret, by rw [ht]; exact .ret t.sp _⟩

theorem exec_call_effect (nnn : Addr12) (s : State) : ∃ t, exec (.call nnn) s = .next t ∧ Effect s (.call nnn) t := by
  by_cases room : s.sp.val < 16
  · obtain ⟨t, hcall, ht, -, hstack⟩ := execCall_room nnn room
    refine ⟨_, hcall, ?_⟩
    rw [ht]
    refine .call nnn t.sp fun k => ?_
    rw [hstack k]
    exact ite_eq_or_eq _ _ _
  · exact ⟨_, execCall_full nnn (by omega), .raise _ (fun _ => by simp)⟩

theorem exec_ldVxK_effect (x : Nibble) (s : State) : ∃ t, exec (.ldVxK x) s = .next t ∧ Effect s (.ldVxK x) t := by
  cases h : lowestKey s.keys with
  | none => exact ⟨s, exec_ldVxK_of_lowestKey_eq_none x h, .wait x⟩
  | some k => exact ⟨_, exec_ldVxK_of_lowestKey_eq_some x h, .reg _ (by simp [Instr.hasDest])⟩

theorem State.drawn_dirty (s : State) (x y n : Nibble) (h : s.dirty = true) : (s.drawn x y n).dirty = true :=
  (drawRows_toggled _ _ _ _).dirty.2 (.inl h)

theorem exec_effect (i : Instr) (s : State) : ∃ t, exec i s = .next t ∧ Effect s i t := by
  cases i with
  | cls => exact ⟨_, exec_cls s, .cls⟩
  | ret => exact exec_ret_effect s
  | call nnn => exact exec_call_effect nnn s
  | jp nnn => exact ⟨_, exec_jp nnn s, .jp nnn⟩
  | jpV0 nnn => exact ⟨_, exec_jpV0 nnn s, .jpV0 nnn⟩
  | seImm | sneImm | seReg | sneReg => exact ⟨_, rfl, .skip _ _⟩
  | skp x => exact ⟨_, exec_skp x s, .skipOnKey _ _ _ _⟩
  | sknp x => exact ⟨_, exec_sknp x s, .skipOnKey _ _ _ _⟩
  | ldImm | addImm | ldReg | orReg | andReg | xorReg | rnd | ldVxDt =>
    exact ⟨_, rfl, .reg _ (by simp [Instr.hasDest])⟩
  | addReg | subReg | shr | subnReg | shl => exact ⟨_, rfl, .regFlag _ _ (by simp [Instr.hasDest]) rfl⟩
  | ldVxK x => exact exec_ldVxK_effect x s
  | ldI nnn => exact ⟨_, exec_ldI nnn s, .index _ (.inl ⟨nnn, rfl⟩)⟩
  | ldF x => exact ⟨_, exec_ldF x s, .index _ (.inr ⟨x, rfl⟩)⟩
  | addI x => exact ⟨_, exec_addI x s, .indexFlag x _ _⟩
  | ldDtVx x => exact ⟨_, exec_ldDtVx x s, .delay x _⟩
  | ldStVx x => exact ⟨_, exec_ldStVx x s, .sound x _⟩
  | drw x y n => exact ⟨_, exec_drw x y n s, .checked _ _ (.draw x y n _ _ (s.drawn_dirty x y n))⟩
  | ldB x => exact ⟨_, exec_ldB x s, .checked _ _ (.store _ (.inl ⟨x, rfl⟩))⟩
  | ldMemVx x => exact ⟨_, exec_ldMemVx x s, .checked _ _ (.store _ (.inr ⟨x, rfl⟩))⟩
  | ldVxMem x => exact ⟨_, exec_ldVxMem x s, .checked _ _ (.load x (Memory.readBytes_length _ _ _))⟩

theorem effect_of_exec {i : Instr} {s t : State} (h : exec i s = .next t) : Effect s i t := by
  obtain ⟨u, hu, effect⟩ := exec_effect i s
  cases hu.symm.trans h
  exact effect

/-! ### Who writes a general register (10 R21, R22) -/

theorem Effect.getV {i : Instr} {s t : State} (h : Effect s i t) (r : Nibble) (changed : t.getV r ≠ s.getV r) :
    i.hasDest r = true ∨ (i.writesFlag = true ∧ r = 15#4) := by
  cases h with
  | skip taken => rw [skipWhen_eq, State.jump_getV] at changed; exact absurd rfl changed
  | reg b hx =>
    rw [writeReg_getV] at changed
    split_ifs at changed with hr
    · exact .inl (hr ▸ hx)
    · exact absurd rfl changed
  | regFlag b f hx hf =>
    rw [writeRegFlag_getV] at changed
    split_ifs at changed with hflag hr
    · exact .inr ⟨hf, hflag⟩
    · exact .inl (hr ▸ hx)
    · exact absurd rfl changed
  | indexFlag | draw =>
    rw [State.getV_setVF] at changed
    split_ifs at changed with hflag
    · exact .inr ⟨rfl, hflag⟩
    · exact absurd rfl changed
  | load x hbs =>
    rw [getV_setVs _ _ _ _ (by omega)] at changed
    split_ifs at changed with hr
    · exact .inl (by simp only [Instr.hasDest, decide_eq_true_eq]; omega)
    · exact absurd rfl changed
  | _ => exact absurd rfl changed

/-! ### Who writes the other pieces (10_state.md section 1) -/

/-- Each piece is unchanged unless the instruction is one of its writers. -/
structure KeepsUnlessWriter (s : State) (i : Instr) (t : State) : Prop where
  index : t.i = s.i ∨ (∃ n, i = .ldI n) ∨ (∃ x, i = .addI x) ∨ ∃ x, i = .ldF x
  sp : t.sp = s.sp ∨ (∃ n, i = .call n) ∨ i = .ret
  stack : t.stack = s.stack ∨ ∃ n, i = .call n
  disp : t.disp = s.disp ∨ i = .cls ∨ ∃ x y n, i = .drw x y n
  dirty : t.dirty = s.dirty ∨ t.dirty = true ∧ (i = .cls ∨ ∃ x y n, i = .drw x y n)
  mem : t.mem = s.mem ∨ (∃ x, i = .ldB x) ∨ ∃ x, i = .ldMemVx x

theorem Effect.keeps {i : Instr} {s t : State} (h : Effect s i t) : KeepsUnlessWriter s i t := by
  cases h with
  | skip taken => rw [skipWhen_eq]; constructor <;> exact .inl rfl
  | call nnn | ret | cls => constructor <;> simp
  | index w hi =>
    constructor
    case index => exact .inr (hi.imp_right .inr)
    all_goals exact .inl rfl
  | indexFlag x w f =>
    constructor
    case index => exact .inr (.inr (.inl ⟨x, rfl⟩))
    all_goals exact .inl rfl
  | @draw x y n disp dirty f hdirty =>
    constructor
    case disp => exact .inr (.inr ⟨x, y, n, rfl⟩)
    case dirty =>
      rcases Bool.eq_false_or_eq_true dirty with hd | hd
      · exact .inr ⟨hd, .inr ⟨x, y, n, rfl⟩⟩
      · have wasClear : s.dirty = false := Bool.eq_false_iff.2 fun set => by simp [hdirty set] at hd
        exact .inl (hd.trans wasClear.symm)
    all_goals exact .inl rfl
  | store bs hi =>
    constructor
    case mem => exact .inr hi
    all_goals exact .inl rfl
  | @load x bs hbs =>
    obtain ⟨w, hw⟩ := setVs_eq bs 0 s.advance
    rw [hw]
    constructor <;> exact .inl rfl
  | _ => constructor <;> exact .inl rfl

/-! ### PC and the return addresses (20 R53) -/

/-- Every value an instruction can give PC. -/
theorem Effect.pc {i : Instr} {s t : State} (h : Effect s i t) :
    t.pc = s.pc ∨ t.pc = s.pc + 2#16 ∨ t.pc = s.pc + 4#16 ∨
    (∃ nnn, (i = .jp nnn ∨ i = .call nnn) ∧ t.pc = zextAddr nnn) ∨
    (∃ nnn, i = .jpV0 nnn ∧ t.pc = zextByte (s.getV 0#4) + zextAddr nnn) ∨ ∃ k : Fin 16, t.pc = s.stack[k] := by
  cases h with
  | raise | wait => exact .inl rfl
  | skip taken =>
    rw [skipWhen_pc]
    split_ifs
    · exact .inr (.inr (.inl rfl))
    · exact .inr (.inl rfl)
  | jp nnn => exact .inr (.inr (.inr (.inl ⟨nnn, .inl rfl, rfl⟩)))
  | call nnn => exact .inr (.inr (.inr (.inl ⟨nnn, .inr rfl, rfl⟩)))
  | jpV0 nnn => exact .inr (.inr (.inr (.inr (.inl ⟨nnn, rfl, rfl⟩))))
  | ret sp k => exact .inr (.inr (.inr (.inr (.inr ⟨k, rfl⟩))))
  | @load x bs hbs =>
    obtain ⟨w, hw⟩ := setVs_eq bs 0 s.advance
    rw [hw]
    exact .inr (.inl rfl)
  | _ => exact .inr (.inl rfl)

/-- Every value an instruction can give a stack slot. -/
theorem Effect.slot {i : Instr} {s t : State} (h : Effect s i t) (k : Fin 16) :
    t.stack[k] = s.pc + 2#16 ∨ t.stack[k] = s.stack[k] := by
  cases h with
  | call nnn sp hstack => exact hstack k
  | skip taken => rw [skipWhen_eq]; exact .inr rfl
  | @load x bs hbs =>
    obtain ⟨w, hw⟩ := setVs_eq bs 0 s.advance
    rw [hw]
    exact .inr rfl
  | _ => exact .inr rfl

@[simp] theorem zextByte_toNat (b : Byte) : (zextByte b).toNat = b.toNat :=
  BitVec.toNat_setWidth_of_le (by decide)

/-- V0 + nnn is at most 0x10FE, so 16 bits hold it. -/
theorem zextByte_add_zextAddr_toNat (b : Byte) (nnn : Addr12) :
    (zextByte b + zextAddr nnn).toNat = b.toNat + nnn.toNat := by
  have := b.isLt
  have := nnn.isLt
  rw [BitVec.toNat_add, zextByte_toNat, zextAddr_toNat, Nat.mod_eq_of_lt (by omega)]

theorem Effect.even {i : Instr} {s t : State} (h : Effect s i t) (hpc : s.pc.toNat % 2 = 0)
    (hstack : ∀ k : Fin 16, s.stack[k].toNat % 2 = 0) (hjump : ∀ n, i = .jp n ∨ i = .call n → n.toNat % 2 = 0)
    (hjumpV0 : ∀ n, i = .jpV0 n → ((s.getV 0#4).toNat + n.toNat) % 2 = 0) :
    t.pc.toNat % 2 = 0 ∧ ∀ k : Fin 16, t.stack[k].toNat % 2 = 0 := by
  have two : (s.pc + 2#16).toNat % 2 = 0 := by rw [BitVec.toNat_add]; simp only [BitVec.toNat_ofNat]; omega
  have four : (s.pc + 4#16).toNat % 2 = 0 := by rw [BitVec.toNat_add]; simp only [BitVec.toNat_ofNat]; omega
  refine ⟨?_, fun k => ?_⟩
  · obtain hp | hp | hp | ⟨n, hi, hp⟩ | ⟨n, hi, hp⟩ | ⟨k, hp⟩ := h.pc <;> rw [hp]
    · exact hpc
    · exact two
    · exact four
    · rw [zextAddr_toNat]; exact hjump n hi
    · rw [zextByte_add_zextAddr_toNat]; exact hjumpV0 n hi
    · exact hstack k
  · obtain hk | hk := h.slot k <;> rw [hk]
    · exact two
    · exact hstack k

end Sys2Proof.Machine

open Sys2Proof Sys2Proof.Machine

/-- Settles O50: every instruction has an effect. -/
theorem everyInstructionAnswers : Obligations.EveryInstructionAnswers := by
  intro i s
  obtain ⟨t, ht, -⟩ := exec_effect i s
  exact ⟨t, ht⟩

/-- Settles O51: an effect that changes VF writes it as its destination or as its flag. -/
theorem onlyMarkedInstructionsSetVF : Obligations.OnlyMarkedInstructionsSetVF := by
  intro i s t hexec changed
  obtain dest | ⟨flag, -⟩ := (effect_of_exec hexec).getV 15#4 changed
  · exact .inr dest
  · exact .inl flag

/-- Settles O52: a register that is not VF is written as a destination only. -/
theorem onlyDestinationsChange : Obligations.OnlyDestinationsChange :=
  fun _ _ _ r hexec notVF changed =>
    ((effect_of_exec hexec).getV r changed).resolve_right fun flag => notVF flag.2

/-- Settles O53: an effect keeps each piece its instruction is no writer of. -/
theorem eachPieceHasItsWriters : Obligations.EachPieceHasItsWriters := by
  intro i s t hexec
  obtain ⟨index, sp, stack, disp, dirty, mem⟩ := (effect_of_exec hexec).keeps
  exact ⟨index.resolve_left, sp.resolve_left, stack.resolve_left, disp.resolve_left, dirty.resolve_left, mem.resolve_left⟩

/-- Settles O57: PC and a slot take only values that are even where PC, the slots and the jump targets are. -/
theorem pcStaysEven : Obligations.PcStaysEven :=
  fun _ _ _ hexec => (effect_of_exec hexec).even

end

section
/-! PROOFS. The fetch and the STEP operation (spec/20_memory.md R52; 30_encoding.md R70, R78; 60_exceptions.md R202, R207 to
R209). -/

namespace Sys2Proof.Machine

/-! ### The fetch (20 R52) -/

theorem State.fetch_of_le {s : State} (h : s.pc.toNat ≤ 0xFFE) :
    s.fetch = .word (wordOf (s.mem.read s.pc.toNat) (s.mem.read (s.pc.toNat + 1))) := by
  rw [State.fetch, firstOutOfRange_none (.inr (by omega))]

theorem State.fetch_of_gt {s : State} (h : 0xFFE < s.pc.toNat) : s.fetch = .outOfRange (max s.pc.toNat 0x1000) := by
  rw [State.fetch, firstOutOfRange_some (by decide) (by omega)]

theorem State.pc_le_of_fetch_eq_word {s : State} {w : Word} (h : s.fetch = .word w) : s.pc.toNat ≤ 0xFFE := by
  by_contra above
  rw [State.fetch_of_gt (by omega)] at h
  cases h

/-! ### The STEP operation on a running machine (30 R70) -/

theorem step_of_outOfRange {s : State} {a : Nat} (running : s.halt = .running) (next : s.stepsNext = true)
    (hfetch : s.fetch = .outOfRange a) : step s = .next ((s.raise (.addressOutOfRange a)).endStep none) := by
  rw [step_eq_stepOp next, stepOp_running running, runStep, hfetch]

theorem step_of_unknown {s : State} {w : Word} (running : s.halt = .running) (next : s.stepsNext = true)
    (hfetch : s.fetch = .word w) (hdecode : decode w = .unknown w) : step s = .next (unknownStep w s) := by
  rw [step_eq_stepOp next, stepOp_running running, runStep, hfetch]
  simp only [hdecode]

theorem step_of_instr {s : State} {w : Word} {i : Instr} (running : s.halt = .running) (next : s.stepsNext = true)
    (hfetch : s.fetch = .word w) (hdecode : decode w = .instr i) : step s = finishStep (exec i s) := by
  rw [step_eq_stepOp next, stepOp_running running, runStep, hfetch]
  simp only [hdecode]

/-! ### The STEP operation on a halted machine (60 R207, 70 R243) -/

theorem step_of_halted {s : State} {c : HaltCause} (halted : s.halt = .halted c)
    (existing : ∀ n, c ≠ .fatal (.programTooLarge n)) (next : s.stepsNext = true) :
    step s = .next (s.endStep none) := by
  rw [step_eq_stepOp next, stepOp, halted]
  match c with
  | .hostStop => rfl
  | .fatal (.programTooLarge n) => exact absurd rfl (existing n)
  | .fatal (.addressOutOfRange _) | .fatal .stackOverflow | .fatal .stackUnderflow
  | .fatal (.keyIndexOutOfRange _) => rfl

theorem step_of_failedReset {s : State} {n : Nat} (failed : s.halt = .halted (.fatal (.programTooLarge n)))
    (next : s.stepsNext = true) : step s = .refused .machineNotConstructed := by
  rw [step_eq_stepOp next, stepOp, failed]

/-- What a meaning leaves alone, the end of its STEP leaves alone too, but for the diagnostic and the schedule. -/
theorem FrameBut.endStep {ps : List Piece} {s t : State} (d : Option Diagnostic) (h : FrameBut ps s t) :
    FrameBut (ps ++ [.diag, .schedule]) s (t.endStep d) := by
  intro p hp
  simp only [List.mem_append, not_or] at hp
  obtain ⟨unchanged, notEnd⟩ := hp
  cases p with
  | diag | schedule => exact absurd (by simp) notEnd
  | _ => exact h _ unchanged

theorem advance_frame (s : State) : FrameBut [.pc] s s.advance := jump_frame s _

/-- HALT alone says whether the machine exists (60 R201). -/
theorem State.constructed_eq_false_iff (s : State) :
    s.constructed = false ↔ ∃ n, s.halt = .halted (.fatal (.programTooLarge n)) := by
  unfold State.constructed
  split
  · next n h => exact ⟨fun _ => ⟨n, h⟩, fun _ => rfl⟩
  · next h => exact ⟨fun h' => absurd h' (by simp), fun ⟨n, h'⟩ => absurd h' (h n)⟩

/-! ### Everything a step can do (00 R12, 60 R223) -/

theorem step_eq_tick {s : State} {rest : List HostOp} (h : s.host = .tick :: rest) :
    step s = .next s.tick.endOp := by
  rw [step, hostStep, h]

theorem step_eq_stop {s : State} {rest : List HostOp} (h : s.host = .stop :: rest) :
    step s = .next s.stop.endOp := by
  rw [step, hostStep, h]

/-- `StepEffect s t`: what the host's next operation may answer at `s`. -/
inductive StepEffect (s : State) : State → Prop
  | reset {image : List Byte} {rest : List HostOp} (h : s.host = .reset image :: rest) :
      StepEffect s (s.resetWith image).endOp
  | tick (h : s.stepsNext = false) : StepEffect s s.tick.endOp
  | consumeFrame (h : s.stepsNext = false) : StepEffect s s.consumeFrame.2.endOp
  | stop (h : s.stepsNext = false) : StepEffect s s.stop.endOp
  | halted {c : HaltCause} (h : s.halt = .halted c) : StepEffect s (s.endStep none)
  | outOfRange (running : s.halt = .running) (a : Nat) :
      StepEffect s ((s.raise (.addressOutOfRange a)).endStep none)
  | unknown (running : s.halt = .running) (hpc : s.pc.toNat ≤ 0xFFE) (w : Word) : StepEffect s (unknownStep w s)
  | instr (running : s.halt = .running) (hpc : s.pc.toNat ≤ 0xFFE) {i : Instr} {u : State} (h : Effect s i u) :
      StepEffect s (u.endStep none)

theorem step_running_effect {s : State} (running : s.halt = .running) (next : s.stepsNext = true) :
    ∃ t, step s = .next t ∧ StepEffect s t := by
  cases hfetch : s.fetch with
  | outOfRange a => exact ⟨_, step_of_outOfRange running next hfetch, .outOfRange running a⟩
  | word w =>
    have hpc := State.pc_le_of_fetch_eq_word hfetch
    obtain ⟨i, hi⟩ | ⟨hu, -⟩ := decode_cases w
    · obtain ⟨u, hexec, effect⟩ := exec_effect i s
      exact ⟨_, by rw [step_of_instr running next hfetch hi, hexec, finishStep], .instr running hpc effect⟩
    · exact ⟨_, step_of_unknown running next hfetch hu, .unknown running hpc w⟩

theorem step_op_effect {s : State} (next : s.stepsNext = true) (existing : s.constructed = true) :
    ∃ t, step s = .next t ∧ StepEffect s t := by
  cases hhalt : s.halt with
  | running => exact step_running_effect hhalt next
  | halted c =>
    have notFailed (n : Nat) : c ≠ .fatal (.programTooLarge n) := by
      rintro rfl
      rw [(s.constructed_eq_false_iff).2 ⟨n, hhalt⟩] at existing
      cases existing
    exact ⟨_, step_of_halted hhalt notFailed next, .halted hhalt⟩

/-- A step answers one of these effects, unless it is a STEP on a machine whose RESET failed (70 R243). -/
theorem step_effect {s : State} (h : ¬ (s.constructed = false ∧ s.stepsNext = true)) :
    ∃ t, step s = .next t ∧ StepEffect s t := by
  cases next : s.stepsNext with
  | true => exact step_op_effect next (by simpa [next] using h)
  | false =>
    cases hhost : s.host with
    | nil => simp [State.stepsNext, hhost] at next
    | cons op rest =>
      cases op with
      | step keys rnd => simp [State.stepsNext, hhost, HostOp.isStep] at next
      | reset image => exact ⟨_, step_eq_reset hhost, .reset hhost⟩
      | tick => exact ⟨_, step_eq_tick hhost, .tick next⟩
      | consumeFrame => exact ⟨_, step_eq_consumeFrame hhost, .consumeFrame next⟩
      | stop => exact ⟨_, step_eq_stop hhost, .stop next⟩

theorem step_refused {s : State} (failed : s.constructed = false) (next : s.stepsNext = true) :
    step s = .refused .machineNotConstructed := by
  obtain ⟨n, hn⟩ := (s.constructed_eq_false_iff).1 failed
  exact step_of_failedReset hn next

theorem effect_of_step {s t : State} (h : step s = .next t) : StepEffect s t := by
  by_cases failed : s.constructed = false ∧ s.stepsNext = true
  · rw [step_refused failed.1 failed.2] at h
    cases h
  · obtain ⟨u, hu, effect⟩ := step_effect failed
    cases hu.symm.trans h
    exact effect

/-! ### The conditions a STEP raises (60 R200, R209) -/

/-- An instruction that changes HALT raises a condition at the state as it was. -/
theorem Effect.raised {i : Instr} {s t : State} (h : Effect s i t) :
    (∃ c, (∀ n, c ≠ .programTooLarge n) ∧ t = s.raise c) ∨ t.halt = s.halt := by
  cases h with
  | @raise _ c hc => exact .inl ⟨c, hc, rfl⟩
  | skip taken => rw [skipWhen_eq]; exact .inr rfl
  | @load x bs hbs =>
    obtain ⟨w, hw⟩ := setVs_eq bs 0 s.advance
    rw [hw]
    exact .inr rfl
  | _ => exact .inr rfl

theorem StepEffect.raised {s t : State} (h : StepEffect s t) (running : s.halt = .running) (next : s.stepsNext = true)
    (halted : t.halt ≠ .running) :
    ∃ c, (∀ n, c ≠ .programTooLarge n) ∧ ∃ d, t = (s.raise c).endStep d := by
  cases h with
  | reset h => simp [State.stepsNext, h, HostOp.isStep] at next
  | tick h | consumeFrame h | stop h => simp [h] at next
  | halted h => simp [running] at h
  | outOfRange _ a => exact ⟨_, fun n => by simp, none, rfl⟩
  | unknown => exact absurd running halted
  | instr _ _ h =>
    obtain ⟨c, hc, rfl⟩ | same := h.raised
    · exact ⟨c, hc, none, rfl⟩
    · exact absurd (same.trans running) halted

/-! ### The bounds (10 R25) -/

theorem Effect.wf {i : Instr} {s t : State} (h : Effect s i t) (hs : s.mem.wf = true) : t.mem.wf = true := by
  cases h with
  | skip taken => rw [skipWhen_eq]; exact hs
  | store bs => exact Memory.wf_writeBytes bs s.base hs
  | @load x bs hbs =>
    obtain ⟨w, hw⟩ := setVs_eq bs 0 s.advance
    rw [hw]
    exact hs
  | _ => exact hs

theorem pc_add_toNat {pc : Word} (h : pc.toNat ≤ 0xFFE) :
    (pc + 2#16).toNat = pc.toNat + 2 ∧ (pc + 4#16).toNat = pc.toNat + 4 := by
  simp only [BitVec.toNat_add, BitVec.toNat_ofNat]
  omega

theorem State.advance_bounded {s : State} (hs : s.Bounded) (hpc : s.pc.toNat ≤ 0xFFE) : s.advance.Bounded := by
  obtain ⟨two, -⟩ := pc_add_toNat hpc
  exact ⟨hs.mem, by rw [State.advance_pc]; omega, hs.stack⟩

/-- From a PC at or below 0xFFE a skip reaches at most 0x1002, a return address is at most 0x1000, and the highest jump
target is V0 + nnn = 0x10FE. -/
theorem Effect.bounded {i : Instr} {s t : State} (h : Effect s i t) (hs : s.Bounded) (hpc : s.pc.toNat ≤ 0xFFE) :
    t.Bounded := by
  obtain ⟨two, four⟩ := pc_add_toNat hpc
  refine ⟨h.wf hs.mem, ?pc, fun k => ?slot⟩
  case pc =>
    obtain hp | hp | hp | ⟨n, -, hp⟩ | ⟨n, -, hp⟩ | ⟨k, hp⟩ := h.pc <;> rw [hp]
    · exact hs.pc
    · omega
    · omega
    · have := n.isLt
      rw [zextAddr_toNat]; omega
    · have := n.isLt
      have := (s.getV 0#4).isLt
      rw [zextByte_add_zextAddr_toNat]; omega
    · exact (hs.stack k).trans (by decide)
  case slot =>
    obtain hk | hk := h.slot k <;> rw [hk]
    · omega
    · exact hs.stack k

theorem State.constructed_of_running {s : State} (h : s.halt = .running) : s.constructed = true := by
  rw [State.constructed, h]

/-- The invariant speaks of memory, PC, the stack and HALT only. -/
theorem State.Inv.congr {s t : State} (h : s.Inv) (hmem : t.mem = s.mem) (hpc : t.pc = s.pc) (hstack : t.stack = s.stack)
    (hhalt : t.constructed = true → s.constructed = true) : t.Inv := by
  intro existing
  obtain ⟨mem, pc, stack⟩ := h (hhalt existing)
  exact ⟨hmem ▸ mem, hpc ▸ pc, hstack ▸ stack⟩

theorem reset_bounded : State.reset.Bounded := ⟨Memory.wf_reset, by decide, by decide⟩

theorem State.resetWith_inv (s : State) (image : List Byte) : (s.resetWith image).Inv := by
  intro existing
  unfold State.resetWith at existing ⊢
  split_ifs at existing ⊢
  · cases existing
  · exact ⟨wf_loadImage image, reset_bounded.pc, reset_bounded.stack⟩

theorem State.stop_of_running {s : State} (h : s.halt = .running) : s.stop = { s with halt := .halted .hostStop } := by
  rw [State.stop, h]

theorem State.stop_of_halted {s : State} {c : HaltCause} (h : s.halt = .halted c) : s.stop = s := by
  rw [State.stop, h]

theorem State.stop_inv {s : State} (h : s.Inv) : s.stop.Inv := by
  cases hhalt : s.halt with
  | running =>
    rw [State.stop_of_running hhalt]
    exact h.congr rfl rfl rfl fun _ => State.constructed_of_running hhalt
  | halted c => rwa [State.stop_of_halted hhalt]

theorem StepEffect.inv {s t : State} (h : StepEffect s t) (hs : s.Inv) : t.Inv := by
  cases h with
  | @reset image rest _ => exact (s.resetWith_inv image).congr rfl rfl rfl id
  | tick | consumeFrame | halted => exact hs.congr rfl rfl rfl id
  | stop => exact (State.stop_inv hs).congr rfl rfl rfl id
  | outOfRange running => exact hs.congr rfl rfl rfl fun _ => State.constructed_of_running running
  | unknown running hpc w =>
    obtain ⟨mem, pc, stack⟩ := State.advance_bounded (hs (State.constructed_of_running running)) hpc
    exact fun _ => ⟨mem, pc, stack⟩
  | instr running hpc h =>
    obtain ⟨mem, pc, stack⟩ := h.bounded (hs (State.constructed_of_running running)) hpc
    exact fun _ => ⟨mem, pc, stack⟩

/-! ### A placed word (70_reset_and_hazards.md section 2) -/

theorem withFetchWord_toNat (s : State) (w : Word) : s.withFetchWord 16 w.toNat = placeWord s w := by
  rw [State.withFetchWord, Nat.mod_eq_of_lt w.isLt, BitVec.ofNat_toNat, BitVec.setWidth_eq]

theorem placeWord_stepsNext (s : State) (w : Word) : (placeWord s w).stepsNext = true := by
  cases h : s.host.dropWhile (fun op => !op.isStep) with
  | nil => simp [State.stepsNext, placeWord, h]
  | cons op rest =>
    have first := List.head?_dropWhile_not (fun op : HostOp => !op.isStep) s.host
    rw [h] at first
    simpa [State.stepsNext, placeWord, h] using first

theorem placeWord_pc_le (s : State) (w : Word) : (placeWord s w).pc.toNat ≤ 0xFFE := by
  unfold placeWord
  simp only
  split_ifs with h
  · exact h
  · decide

/-- The two bytes the placed word is stored as are what the fetch reads. -/
theorem placeWord_fetch {s : State} (w : Word) (hwf : s.mem.wf = true) : (placeWord s w).fetch = .word w := by
  have hpc := placeWord_pc_le s w
  have read (a : Nat) := Memory.read_writeBytes (wordBytes w) (placeWord s w).pc.toNat a hwf
    (by simp only [wordBytes, List.length_cons, List.length_nil]; omega)
  have high : (placeWord s w).mem.read (placeWord s w).pc.toNat = w.extractLsb' 8 8 := by
    refine (read _).trans ?_
    simp [wordBytes]
  have low : (placeWord s w).mem.read ((placeWord s w).pc.toNat + 1) = w.extractLsb' 0 8 := by
    refine (read _).trans ?_
    simp [wordBytes]
  rw [State.fetch_of_le hpc, high, low, wordOf_wordBytes]

theorem finishStep_eq (o : Host.Outcome State Fault Refusal) :
    finishStep o = match o with
      | .next t => .next { t with diag := none, host := t.host.tail, opNo := t.opNo + 1 }
      | .fault f => .fault f
      | .refused r => .refused r := by
  cases o <;> rfl

end Sys2Proof.Machine

open Sys2Proof Sys2Proof.Machine

/-- Settles O6: the range check of the two addresses PC and PC + 1. -/
theorem fetchIsBigEndian : Obligations.FetchIsBigEndian := by
  refine fun s => ⟨State.fetch_of_le, fun h => ?_, fun h => ?_⟩
  · rw [State.fetch_of_gt (by omega), h]; rfl
  · rw [State.fetch_of_gt (by omega), Nat.max_eq_left h]

/-- Settles O7: in range the fetch gives the word of the two bytes, and the step finishes exec of its decoding. -/
theorem stepRunsDecodedInstruction : Obligations.StepRunsDecodedInstruction := by
  intro s i running next hpc hbytes
  have hdecode : decode (wordOf (s.mem.read s.pc.toNat) (s.mem.read (s.pc.toNat + 1))) = .instr i :=
    congrArg Prod.fst (Except.ok.inj hbytes)
  exact (step_of_instr running next (State.fetch_of_le hpc) hdecode).trans (finishStep_eq _)

/-- Settles O8: the step is the fetch advance and the end of a STEP that reports the word. -/
theorem unmappedWordIsNoOperation : Obligations.UnmappedWordIsNoOperation :=
  fun s _ running next hfetch hdecode => ⟨_, step_of_unknown running next hfetch hdecode, State.advance_pc s, rfl,
    (advance_frame s).endStep _⟩

/-- Settles O9: on a machine that exists and is halted a STEP is its end and nothing else. -/
theorem haltedStepChangesNothing : Obligations.HaltedStepChangesNothing :=
  fun s _ halted existing next => ⟨_, step_of_halted halted existing next, rfl, endStep_frame s none⟩

/-- Settles O10: above 0xFFE the fetch gives the lowest bad address, and the step raises it at the state as it was. -/
theorem fetchOutOfRangeHalts : Obligations.FetchOutOfRangeHalts :=
  fun s running next hpc => ⟨_, step_of_outOfRange running next (State.fetch_of_gt hpc), rfl, rfl,
    (raise_frame s _).endStep _⟩

/-- Settles O11: the two effects of a STEP that leave a running machine halted are a fetch out of range and an instruction
that raises, and both raise at the state as it was. -/
theorem haltingStepCommitsNothing : Obligations.HaltingStepCommitsNothing := by
  intro s t running next hstep halted
  obtain ⟨c, hc, d, rfl⟩ := (effect_of_step hstep).raised running next halted
  exact ⟨⟨c, rfl, hc⟩, (raise_frame s c).endStep d⟩

/-- Settles O12: the fetch gives the placed word, which decodes to the instruction it encodes. -/
theorem placedWordRunsNext : Obligations.PlacedWordRunsNext := by
  intro s i hwf
  rw [withFetchWord_toNat]
  exact (step_of_instr rfl (placeWord_stepsNext s _) (placeWord_fetch _ hwf) (decode_encode i)).trans (finishStep_eq _)

/-- Settles O13: every other step has an effect. -/
theorem stepStopsOnlyAfterFailedReset : Obligations.StepStopsOnlyAfterFailedReset := by
  intro s
  split_ifs with h
  · exact step_refused h.1 h.2
  · obtain ⟨t, ht, -⟩ := step_effect h
    exact ⟨t, ht⟩

/-- Settles O14: the inputs are read off the head of the schedule. -/
theorem stepInputsComeFromSchedule : Obligations.StepInputsComeFromSchedule := by
  refine fun s keys rnd rest => ⟨fun h => ?_, fun h => ?_⟩
  · rw [State.keys, State.rnd, h]; exact ⟨rfl, rfl⟩
  · rw [State.keys, State.rnd, h]; exact ⟨rfl, rfl⟩

/-- Settles O58: the jump's target is PC, so the meaning is the state itself, and what remains is the end of the STEP. -/
theorem selfJumpIsFixedPoint : Obligations.SelfJumpIsFixedPoint := by
  intro s nnn running next hpc hfetch
  have target : zextAddr nnn = s.pc := BitVec.eq_of_toNat_eq ((zextAddr_toNat nnn).trans hpc.symm)
  have meaning : exec (.jp nnn) s = .next s := by
    rw [exec_jp, execJp, target, State.advance_eq_jump, State.jump_jump, State.jump_self]
  have hstep := step_of_instr running next hfetch (decode_encode (.jp nnn))
  rw [meaning, finishStep] at hstep
  exact ⟨_, hstep, rfl, endStep_frame s none⟩

/-- Settles O59: the reset state is within the bounds. -/
theorem resetMeetsBounds : Obligations.ResetMeetsBounds := fun _ => reset_bounded

/-- Settles O60: every effect of a step keeps the invariant. -/
theorem stepKeepsBounds : Obligations.StepKeepsBounds := fun _ _ hs hstep => (effect_of_step hstep).inv hs

end

section
/-! PROOFS. The host operations TICK, STOP and RESET, and what leaves a halted state (spec/60_exceptions.md R201, R214,
R224; 70_reset_and_hazards.md R240, R242, R243). -/

namespace Sys2Proof.Machine

/-- What two runs in a row leave alone is unchanged from the first state to the last. -/
theorem FrameBut.trans {ps : List Piece} {s t u : State} (h : FrameBut ps s t) (h' : FrameBut ps t u) :
    FrameBut ps s u := by
  intro p hp
  cases p with
  | schedule =>
    obtain ⟨host, opNo⟩ := h _ hp
    obtain ⟨host', opNo'⟩ := h' _ hp
    exact ⟨host'.trans host, opNo'.trans opNo⟩
  | _ => exact (h' _ hp).trans (h _ hp)

/-! ### TICK (60 R214) -/

/-- One timer's part of a TICK: natural subtraction floors at 0. -/
theorem timer_down_toNat (b : Byte) : (if 0 < b.toNat then b - 1#8 else b).toNat = b.toNat - 1 := by
  have := b.isLt
  split_ifs
  · rw [BitVec.toNat_sub, BitVec.toNat_ofNat]; omega
  · omega

theorem State.tick_dt (s : State) : s.tick.dt.toNat = s.dt.toNat - 1 := timer_down_toNat s.dt

theorem State.tick_st (s : State) : s.tick.st.toNat = s.st.toNat - 1 := timer_down_toNat s.st

theorem State.tick_frame (s : State) : FrameBut [.delay, .sound] s s.tick := by
  intro p hp
  cases p with
  | delay | sound => exact absurd (by simp) hp
  | schedule => exact ⟨rfl, rfl⟩
  | _ => rfl

theorem step_tick {s : State} {rest : List HostOp} (h : s.host = .tick :: rest) :
    ∃ t, step s = .next t ∧ t.dt.toNat = s.dt.toNat - 1 ∧ t.st.toNat = s.st.toNat - 1 ∧ t.host = rest ∧
      FrameBut [.delay, .sound, .schedule] s t :=
  ⟨_, step_eq_tick h, s.tick_dt, s.tick_st, by rw [State.endOp_host, State.tick_host, h, List.tail_cons],
    s.tick_frame.endOp⟩

/-! ### STOP (60 R224) -/

theorem State.stop_host (s : State) : s.stop.host = s.host := by
  cases h : s.halt with
  | running => rw [State.stop_of_running h]
  | halted c => rw [State.stop_of_halted h]

theorem State.stop_frame (s : State) : FrameBut [.halt] s s.stop := by
  cases h : s.halt with
  | running =>
    rw [State.stop_of_running h]
    intro p hp
    cases p with
    | halt => exact absurd (List.mem_singleton_self _) hp
    | schedule => exact ⟨rfl, rfl⟩
    | _ => rfl
  | halted c => rw [State.stop_of_halted h]; exact FrameBut.refl _ s

theorem State.stop_halt {s : State} (h : s.halt ≠ .running) : s.stop.halt = s.halt := by
  cases hs : s.halt with
  | running => exact absurd hs h
  | halted c => rw [State.stop_of_halted hs, hs]

/-! ### RESET (60 R201, 70 R240) -/

theorem State.resetWith_of_gt {image : List Byte} (tooLarge : 3584 < image.length) (s : State) :
    s.resetWith image = { Config.stateAfterFailedReset s.opNo with
      halt := .halted (.fatal (.programTooLarge image.length)), host := s.host, opNo := s.opNo, diag := none } :=
  if_pos tooLarge

theorem reset_getV (x : Nibble) : State.reset.getV x = 0#8 := by simp [State.reset, State.getV]

theorem reset_stack (k : Fin 16) : State.reset.stack[k] = 0#16 := by simp [State.reset]

/-! ### What leaves a halted state (10 R34) -/

theorem StepEffect.keeps_halt {s t : State} (h : StepEffect s t) (halted : s.halt ≠ .running)
    (noReset : ∀ image rest, s.host ≠ .reset image :: rest) : t.halt = s.halt := by
  cases h with
  | reset h => exact absurd h (noReset _ _)
  | tick | consumeFrame | halted => rfl
  | stop => exact State.stop_halt halted
  | outOfRange running | unknown running | instr running => exact absurd running halted

end Sys2Proof.Machine

open Sys2Proof Sys2Proof.Machine

/-- Settles O15: the step is the countdown, whose frame is the two timers, and the end of the operation. -/
theorem tickDecrementsTimers : Obligations.TickDecrementsTimers := fun _ _ => step_tick

/-- Settles O16, by induction on the number of TICKs: the run goes on from the first one's next state. -/
theorem ticksCountDownToZero : Obligations.TicksCountDownToZero := by
  intro k
  induction k with
  | zero => exact fun s _ => ⟨s, rfl, rfl, rfl, FrameBut.refl _ s⟩
  | succ k ih =>
    intro s hhost
    obtain ⟨t, hstep, hdt, hst, hrest, hframe⟩ := step_tick (hhost.trans List.replicate_succ)
    obtain ⟨u, hrun, hdt', hst', hframe'⟩ := ih t hrest
    exact ⟨u, (run_next k hstep).trans hrun, by omega, by omega, hframe.trans hframe'⟩

/-- Settles O18: the step is the latch, whose frame is HALT alone, and the end of the operation. -/
theorem stopLatchesHostStop : Obligations.StopLatchesHostStop := by
  intro s rest hnext
  refine ⟨_, step_eq_stop hnext, ?popped, fun running => ?_, State.stop_halt, s.stop_frame.endOp⟩
  case popped => rw [State.endOp_host, State.stop_host, hnext, List.tail_cons]
  · rw [State.endOp_halt, State.stop_of_running running]

/-- Settles O20: an accepted image leaves every piece but memory and the schedule at its reset value. -/
theorem resetClearsRegisters : Obligations.ResetClearsRegisters := by
  intro s image rest hnext fits
  refine ⟨_, step_eq_reset hnext, ?_⟩
  rw [State.resetWith_of_le fits]
  exact ⟨rfl, rfl, rfl, reset_getV, rfl, rfl, rfl, reset_stack, Display.cell_blank, rfl, rfl⟩

/-- Settles O21: of the state a refused image leaves, HALT is the one piece known, and it is all a STEP looks at. -/
theorem failedResetCannotStep : Obligations.FailedResetCannotStep := by
  refine ⟨fun s image rest hnext tooLarge => ⟨_, step_eq_reset hnext, ?_⟩, fun _ _ failed => step_of_failedReset failed⟩
  rw [State.resetWith_of_gt tooLarge]
  exact ⟨rfl, by rw [State.endOp_host, hnext, List.tail_cons]⟩

/-- Settles O54: of the effects a step can have on a halted machine only RESET's writes HALT. -/
theorem onlyResetLeavesHalt : Obligations.OnlyResetLeavesHalt :=
  fun _ _ hstep => (effect_of_step hstep).keeps_halt

end

section
/-! PROOFS. Jumps, the call stack and the skips on a key (spec/40_control_transfer.md R100 to R103; 44_keypad_timers.md R185,
R186). -/

namespace Sys2Proof.Machine

/-! ### Jumps (40 R101, R103) -/

/-- An instruction whose meaning is a jump writes PC and nothing else; a target above 0xFFE is accepted, and the next fetch
is out of range there. -/
theorem exec_jump {i : Instr} {s : State} {target : Word} {a : Nat}
    (hexec : exec i s = .next (s.advance.jump target)) (htarget : target.toNat = a) :
    ∃ t, exec i s = .next t ∧ t.pc.toNat = a ∧ FrameBut [.pc] s t ∧
      (0xFFE < a → t.fetch = .outOfRange (max a 0x1000)) := by
  refine ⟨_, hexec, htarget, jump_frame s target, fun above => ?_⟩
  rw [State.fetch_of_gt (by rw [State.jump_pc]; omega), State.jump_pc, htarget]

/-! ### The call stack (40 R100, R102) -/

theorem pushed_frame {s t : State} {k : Fin 16} {ret : Word} (target : Word)
    (ht : t = { s with sp := t.sp, stack := t.stack }) (hk : k.val = s.sp.val)
    (hstack : ∀ j : Fin 16, t.stack[j] = if j.val = s.sp.val then ret else s.stack[j]) :
    FrameBut [.pc, .sp, .slot k] s (t.jump target) := by
  intro p hp
  simp only [List.mem_cons, List.not_mem_nil, or_false, not_or] at hp
  obtain ⟨notPc, notSp, notTop⟩ := hp
  rw [ht]
  cases p with
  | pc => exact absurd rfl notPc
  | sp => exact absurd rfl notSp
  | slot j =>
    have other : j.val ≠ s.sp.val := fun h => notTop (by rw [Fin.ext (h.trans hk.symm)])
    exact (hstack j).trans (if_neg other)
  | schedule => exact ⟨rfl, rfl⟩
  | _ => rfl

theorem popped_frame {s t : State} (target : Word) (ht : t = { s with sp := t.sp }) :
    FrameBut [.pc, .sp] s (t.jump target) := by
  intro p hp
  simp only [List.mem_cons, List.not_mem_nil, or_false, not_or] at hp
  obtain ⟨notPc, notSp⟩ := hp
  rw [ht]
  cases p with
  | pc => exact absurd rfl notPc
  | sp => exact absurd rfl notSp
  | schedule => exact ⟨rfl, rfl⟩
  | _ => rfl

/-- An instruction whose meaning raises a condition writes HALT and nothing else (60 R209). -/
theorem exec_raise {i : Instr} {s : State} {c : FatalCondition} (hexec : exec i s = .next (s.raise c)) :
    ∃ t, exec i s = .next t ∧ t.halt = .halted (.fatal c) ∧ FrameBut [.halt] s t :=
  ⟨_, hexec, State.raise_halt s c, raise_frame s c⟩

/-! ### Skips on a key (44 R185, R186) -/

theorem keyIndex_eq_some {b : Byte} {k : Fin 16} (h : b.toNat = k.val) : keyIndex b = some k := by
  rw [keyIndex, dif_pos (h ▸ k.isLt)]
  exact congrArg some (Fin.ext h)

theorem keyIndex_eq_none {b : Byte} (h : 15 < b.toNat) : keyIndex b = none := dif_neg (by omega)

theorem skipOnKey_of_index {s : State} {x : Nibble} {k : Fin 16} (down : Bool) (h : (s.getV x).toNat = k.val) :
    skipOnKey x down s = skipWhen (s.keyDown k == down) s := by
  rw [skipOnKey, keyIndex_eq_some h]

theorem skipOnKey_of_gt {s : State} {x : Nibble} (down : Bool) (h : 15 < (s.getV x).toNat) :
    skipOnKey x down s = s.raise (.keyIndexOutOfRange (s.getV x)) := by
  rw [skipOnKey, keyIndex_eq_none h]

end Sys2Proof.Machine

open Sys2Proof Sys2Proof.Machine

/-- Settles O22: each word is the encoder's, and each meaning is a jump, to the literal or to its sum with V0, which 16 bits
hold. -/
theorem jumpsSetPc : Obligations.JumpsSetPc := by
  refine ⟨fun nnn s => ⟨decode_encode (.jp nnn), ?_⟩, fun nnn s => ⟨decode_encode (.jpV0 nnn), ?_⟩⟩
  · obtain ⟨t, hexec, hpc, hframe, hfetch⟩ := exec_jump (exec_jp nnn s) (zextAddr_toNat nnn)
    refine ⟨t, hexec, hpc, hframe, fun last => ?_⟩
    rw [hfetch (by omega), last]; rfl
  · exact exec_jump (exec_jpV0 nnn s) (zextByte_add_zextAddr_toNat _ nnn)

/-- Settles O25: the word is the encoder's, and the meaning is a push of the address after the CALL and a jump. -/
theorem callPushesReturnAddress : Obligations.CallPushesReturnAddress := by
  intro nnn s room
  obtain ⟨t, hexec, ht, hsp, hstack⟩ := execCall_room nnn room
  exact ⟨decode_encode (.call nnn), _, hexec, zextAddr_toNat nnn, hsp, fun k hk =>
    ⟨(hstack k).trans (if_pos hk), pushed_frame _ ht hk hstack⟩⟩

/-- Settles O26: the word is the encoder's, and the meaning is a pop and a jump to the popped address. -/
theorem returnPopsAddress : Obligations.ReturnPopsAddress := by
  refine ⟨decode_encode .ret, fun s k hk => ?_⟩
  obtain ⟨t, hexec, ht, hsp⟩ := execRet_some hk
  exact ⟨_, hexec, rfl, hsp, popped_frame _ ht⟩

/-- Settles O27: at either end of the stack the meaning raises the condition. -/
theorem stackViolationsHalt : Obligations.StackViolationsHalt :=
  ⟨fun nnn _ full => exec_raise (execCall_full nnn full), fun _ empty => exec_raise (execRet_empty empty)⟩

/-- Settles O28: the RET reads the slot the CALL wrote, and neither writes a lower one. -/
theorem callThenReturnResumes : Obligations.CallThenReturnResumes := by
  intro nnn s room
  obtain ⟨t, hcall, -, hsp, hstack⟩ := execCall_room nnn room
  obtain ⟨u, hret, hu, husp⟩ := execRet_some (s := t.jump (zextAddr nnn)) (k := ⟨s.sp.val, room⟩) hsp
  refine ⟨_, _, hcall, hret, ?pc, Fin.ext husp, fun k below => ?slot⟩
  case pc => exact (hstack ⟨s.sp.val, room⟩).trans (if_pos rfl)
  case slot =>
    rw [State.jump_stack, hu, State.jump_stack, hstack k, if_neg (by omega)]

/-- Settles O46: a key index makes each meaning a skip whose flag compares that key's level. -/
theorem skipsOnKey : Obligations.SkipsOnKey := by
  refine fun x s k hk => ⟨exec_skip (taken := s.keyDown k == true) ?_ beq_iff_eq,
    exec_skip (taken := s.keyDown k == false) ?_ beq_iff_eq⟩
  · rw [exec_skp, execSkp, skipOnKey_of_index true hk]
  · rw [exec_sknp, execSknp, skipOnKey_of_index false hk]

/-- Settles O47: a value that is no key index makes each meaning the condition. -/
theorem keyIndexOutOfRangeHalts : Obligations.KeyIndexOutOfRangeHalts := by
  refine fun x s above => ⟨exec_raise ?_, exec_raise ?_⟩
  · rw [exec_skp, execSkp, skipOnKey_of_gt true above]
  · rw [exec_sknp, execSknp, skipOnKey_of_gt false above]

end

section
/-! PROOFS. Register arithmetic with and without a flag, the random byte, and the two computed writes of I
(spec/41_alu.md R125 to R134; 42_index_memory.md R151, R152). -/

namespace Sys2Proof.Machine

/-! ### A result with a flag (41 R122) -/

/-- An instruction whose meaning is a result and its flag: the flag stands in VF whatever `x` is, the result in V[x] unless
`x` is 15, and nothing else but PC changes. -/
theorem exec_writeRegFlag {i : Instr} {s : State} {x : Nibble} {b f : Byte} {result flag : Nat}
    (hexec : exec i s = .next (writeRegFlag x b f s)) (hb : b.toNat = result) (hf : f.toNat = flag) :
    ∃ t, exec i s = .next t ∧ (x ≠ 15#4 → (t.getV x).toNat = result) ∧ (t.getV 15#4).toNat = flag ∧
      t.pc = s.pc + 2#16 ∧ FrameBut [.reg x, .reg 15#4, .pc] s t := by
  refine ⟨_, hexec, fun notVF => ?result, ?flag, writeRegFlag_pc x b f s, writeRegFlag_frame x b f s⟩
  case result => rw [writeRegFlag_getV, if_neg notVF, if_pos rfl, hb]
  case flag => rw [writeRegFlag_getV, if_pos rfl, hf]

/-! ### The flags as numbers (10 R22) -/

theorem flagByte_toNat (p : Prop) [Decidable p] : (flagByte (decide p)).toNat = if p then 1 else 0 := by
  by_cases hp : p <;> simp [flagByte, hp]

theorem lowBitFlag_toNat (a : Byte) : (lowBitFlag a).toNat = a.toNat % 2 := by
  rw [lowBitFlag, BitVec.getLsbD, Nat.testBit_zero, flagByte_toNat]
  split_ifs <;> omega

theorem highBitFlag_toNat (a : Byte) : (highBitFlag a).toNat = a.toNat / 128 := by
  have := a.isLt
  rw [highBitFlag, BitVec.getLsbD, Nat.testBit_eq_decide_div_mod_eq, flagByte_toNat]
  split_ifs <;> omega

/-! ### The results as numbers (41 R130 to R133) -/

theorem sub_toNat (a b : Byte) : (a - b).toNat = (a.toNat + 256 - b.toNat) % 256 := by
  have := b.isLt
  rw [BitVec.toNat_sub]
  congr 1
  omega

theorem shiftRight_one_toNat (a : Byte) : (a >>> 1).toNat = a.toNat / 2 := by
  rw [BitVec.toNat_ushiftRight, Nat.shiftRight_one]

theorem shiftLeft_one_toNat (a : Byte) : (a <<< 1).toNat = a.toNat * 2 % 256 := by
  rw [BitVec.toNat_shiftLeft, Nat.shiftLeft_eq]

/-! ### The writes of I (42 R151, R152) -/

theorem fontAddress_toNat (b : Byte) : (0x0050#16 + 5#16 * zextByte b).toNat = 0x050 + 5 * b.toNat := by
  have := b.isLt
  simp only [BitVec.toNat_add, BitVec.toNat_mul, BitVec.toNat_ofNat, zextByte_toNat]
  omega

/-- A write of I followed by a write of VF touches the two and, by the fetch advance, PC. -/
theorem writeIndexFlag_frame (w : Word) (f : Byte) (s : State) :
    FrameBut [.index, .reg 15#4, .pc] s ({ s.advance with i := w }.setVF f) := by
  intro p hp
  simp only [List.mem_cons, List.not_mem_nil, or_false, not_or] at hp
  obtain ⟨notIndex, notVF, notPc⟩ := hp
  cases p with
  | reg r => exact (State.getV_setVF _ r f).trans (if_neg fun h => notVF (by rw [h]))
  | index => exact absurd rfl notIndex
  | pc => exact absurd rfl notPc
  | schedule => exact ⟨rfl, rfl⟩
  | _ => rfl

end Sys2Proof.Machine

open Sys2Proof Sys2Proof.Machine

/-- Settles O30: each meaning is one register write, of the copy or of the bitwise result. -/
theorem registerLogic : Obligations.RegisterLogic := by
  intro x y s
  refine ⟨exec_writeReg (exec_ldReg x y s), ?_, ?_, ?_⟩
  · obtain ⟨t, hexec, hx, h⟩ := exec_writeReg (exec_orReg x y s)
    exact ⟨t, hexec, fun b => by rw [hx, BitVec.getLsbD_or], h⟩
  · obtain ⟨t, hexec, hx, h⟩ := exec_writeReg (exec_andReg x y s)
    exact ⟨t, hexec, fun b => by rw [hx, BitVec.getLsbD_and], h⟩
  · obtain ⟨t, hexec, hx, h⟩ := exec_writeReg (exec_xorReg x y s)
    exact ⟨t, hexec, fun b => by rw [hx, BitVec.getLsbD_xor], h⟩

/-- Settles O31: the result is the exact sum narrowed to 8 bits, the flag whether the sum exceeds 255. -/
theorem addSetsCarry : Obligations.AddSetsCarry :=
  fun x y s => exec_writeRegFlag (exec_addReg x y s) (BitVec.toNat_ofNat _ _) (flagByte_toNat _)

/-- Settles O32: the result is the wrapping difference, the flag the strict comparison of the two operands. -/
theorem subtractSetsStrictlyGreater : Obligations.SubtractSetsStrictlyGreater :=
  fun x y s => ⟨exec_writeRegFlag (exec_subReg x y s) (sub_toNat _ _) (flagByte_toNat _),
    exec_writeRegFlag (exec_subnReg x y s) (sub_toNat _ _) (flagByte_toNat _)⟩

/-- Settles O33: the result is the operand shifted by one, the flag its lowest or highest bit. -/
theorem shiftsSetLostBit : Obligations.ShiftsSetLostBit :=
  fun x y s => ⟨exec_writeRegFlag (exec_shr x y s) (shiftRight_one_toNat _) (lowBitFlag_toNat _),
    exec_writeRegFlag (exec_shl x y s) (shiftLeft_one_toNat _) (highBitFlag_toNat _)⟩

/-- Settles O34: the meaning is one register write, of the and of the mask and the STEP's byte. -/
theorem randomIsMasked : Obligations.RandomIsMasked := by
  intro x nn s
  obtain ⟨t, hexec, hx, hpc, hframe⟩ := exec_writeReg (exec_rnd x nn s)
  have bit (b : Nat) : (t.getV x).getLsbD b = (s.rnd.getLsbD b && nn.getLsbD b) := by rw [hx, BitVec.getLsbD_and]
  refine ⟨t, hexec, hpc, hframe, fun b masked => ?_, fun keys rnd rest hhost b => ?_⟩
  · rw [bit, masked, Bool.and_false]
  · rw [bit, ((stepInputsComeFromSchedule s keys rnd rest).1 hhost).2]

/-- Settles O36: the meaning is a write of the wrapping sum to I and of its comparison to VF. -/
theorem addIndexSetsFlag : Obligations.AddIndexSetsFlag := by
  intro x s
  have sum : (s.i + zextByte (s.getV x)).toNat = (s.i.toNat + (s.getV x).toNat) % 65536 := by
    rw [BitVec.toNat_add, zextByte_toNat]
  refine ⟨_, exec_addI x s, sum, ?flag, State.advance_pc s, writeIndexFlag_frame _ _ s⟩
  case flag => rw [State.getV_setVF_same, indexFlag, flagByte_toNat, sum]

/-- Settles O37: the meaning is one write of I, of a sum 16 bits hold. -/
theorem fontAddress : Obligations.FontAddress :=
  fun x s => ⟨_, exec_ldF x s, fontAddress_toNat (s.getV x), State.advance_pc s, writeIndex_frame _ s⟩

end

section
/-! PROOFS. The accesses to memory through I, in range and out of it (spec/42_index_memory.md R153 to R156;
60_exceptions.md R202, R209). -/

namespace Sys2Proof.Machine

/-! ### The range check of an instruction (60 R202, R209) -/

theorem State.checked_inRange {s access : State} {base len : Nat} (h : len = 0 ∨ base + len ≤ 4096) :
    s.checked base len access = access := by
  rw [State.checked_eq, if_neg (by omega)]

/-- An instruction whose meaning is a checked access that reaches 4096 raises the condition with the lowest such address. -/
theorem exec_checked_outOfRange {i : Instr} {s access : State} {base len : Nat}
    (hexec : exec i s = .next (s.checked base len access)) (h : 0 < len ∧ 4096 < base + len) :
    ∃ t, exec i s = .next t ∧ t.halt = .halted (.fatal (.addressOutOfRange (max base 0x1000))) ∧ FrameBut [.halt] s t :=
  exec_raise (by rw [hexec, State.checked_eq, if_pos h])

/-! ### A block store in range (42 R153, R155) -/

theorem Frame.mono {P Q : Piece → Prop} {s t : State} (h : Frame P s t) (sub : ∀ p, P p → Q p) : Frame Q s t :=
  fun p hp => h p fun hP => hp (sub p hP)

theorem writeBytes_read_inside {m : Memory} {a k : Nat} {bs : List Byte} (hwf : m.wf = true) (fits : a + bs.length ≤ 4096)
    (hk : k < bs.length) : (m.writeBytes a bs).read (a + k) = bs[k] := by
  rw [Memory.read_writeBytes bs a (a + k) hwf fits, if_pos (by omega), Nat.add_sub_cancel_left,
    List.getElem?_eq_getElem hk, Option.getD_some]

/-- A block store touches the addresses it covers and, by the fetch advance, PC. -/
theorem store_frame {s : State} {a : Nat} {bs : List Byte} (hwf : s.mem.wf = true) (fits : a + bs.length ≤ 4096) :
    Frame (fun p => p = .pc ∨ ∃ k < bs.length, p = .byte (a + k)) s
      { s.advance with mem := s.mem.writeBytes a bs } := by
  intro p hp
  rw [not_or] at hp
  obtain ⟨notPc, notStored⟩ := hp
  cases p with
  | pc => exact absurd rfl notPc
  | byte b =>
    refine (Memory.read_writeBytes bs a b hwf fits).trans (if_neg fun stored => notStored ⟨b - a, by omega, ?_⟩)
    rw [Nat.add_sub_cancel' stored.1]
  | schedule => exact ⟨rfl, rfl⟩
  | _ => rfl

/-- An instruction whose meaning is a checked block store that is in range leaves each byte at its address. -/
theorem exec_store {i : Instr} {s : State} {bs : List Byte} {len : Nat} (hwf : s.mem.wf = true) (hlen : bs.length = len)
    (fits : s.i.toNat + len ≤ 4096)
    (hexec : exec i s = .next (s.checked s.base len { s.advance with mem := s.mem.writeBytes s.base bs })) :
    ∃ t, exec i s = .next t ∧ (∀ k < len, some (t.mem.read (s.i.toNat + k)) = bs[k]?) ∧
      t.pc = s.pc + 2#16 ∧ Frame (fun p => p = .pc ∨ ∃ k < len, p = .byte (s.i.toNat + k)) s t := by
  subst hlen
  rw [State.checked_inRange (.inr fits)] at hexec
  refine ⟨_, hexec, fun k hk => ?_, State.advance_pc s, store_frame hwf fits⟩
  rw [writeBytes_read_inside hwf fits hk, List.getElem?_eq_getElem hk]

theorem bcdDigits_length (b : Byte) : (bcdDigits b).length = 3 := rfl

/-- A decimal digit fits a byte. -/
theorem digit_toNat {n : Nat} (h : n < 256) : (BitVec.ofNat 8 n).toNat = n := by
  rw [BitVec.toNat_ofNat, Nat.mod_eq_of_lt h]

theorem getVs_getElem?_toNat (s : State) {n : Nat} {r : Nibble} (h : r.toNat < n) :
    (getVs s n)[r.toNat]? = some (s.getV r) := by
  rw [getVs_getElem? s h, BitVec.ofNat_toNat, BitVec.setWidth_eq]

/-! ### A block load in range (42 R156) -/

/-- A block load touches the registers it covers and, by the fetch advance, PC. -/
theorem load_frame {x : Nibble} {s : State} {bs : List Byte} (hbs : bs.length = x.toNat + 1) :
    Frame (fun p => p = .pc ∨ ∃ r : Nibble, r.toNat ≤ x.toNat ∧ p = .reg r) s (setVs 0 bs s.advance) := by
  intro p hp
  rw [not_or] at hp
  obtain ⟨notPc, notLoaded⟩ := hp
  cases p with
  | pc => exact absurd rfl notPc
  | reg r =>
    have uncovered : ¬ r.toNat ≤ x.toNat := fun h => notLoaded ⟨r, h, rfl⟩
    exact (getV_setVs bs 0 s.advance r (by omega)).trans (if_neg (by omega))
  | schedule =>
    obtain ⟨w, hw⟩ := setVs_eq bs 0 s.advance
    rw [hw]
    exact ⟨rfl, rfl⟩
  | _ =>
    obtain ⟨w, hw⟩ := setVs_eq bs 0 s.advance
    rw [hw]
    rfl

theorem setVs_pc (k : Nat) (bs : List Byte) (s : State) : (setVs k bs s).pc = s.pc := by
  obtain ⟨w, hw⟩ := setVs_eq bs k s
  rw [hw]

theorem getV_setVs_zero {bs : List Byte} {r : Nibble} (s : State) (hlen : bs.length ≤ 16) (hr : r.toNat < bs.length) :
    some ((setVs 0 bs s).getV r) = bs[r.toNat]? := by
  rw [getV_setVs bs 0 s r (by omega), if_pos (by omega), Nat.sub_zero, List.getElem?_eq_getElem hr, Option.getD_some]

end Sys2Proof.Machine

open Sys2Proof Sys2Proof.Machine

/-- Settles O38: the meaning is a block store of the three digits. -/
theorem bcdStoresDigits : Obligations.BcdStoresDigits := by
  intro x s hwf inRange
  have byte := (s.getV x).isLt
  obtain ⟨t, hexec, hread, hpc, hframe⟩ := exec_store (len := 3) hwf (bcdDigits_length _) (by omega) (exec_ldB x s)
  have hundreds := Option.some.inj (hread 0 (by decide))
  have tens := Option.some.inj (hread 1 (by decide))
  have ones := Option.some.inj (hread 2 (by decide))
  refine ⟨t, hexec, ?_, ?_, ?_, hpc, hframe⟩
  · exact (congrArg BitVec.toNat hundreds).trans (digit_toNat (by omega))
  · exact (congrArg BitVec.toNat tens).trans (digit_toNat (by omega))
  · exact (congrArg BitVec.toNat ones).trans (digit_toNat (by omega))

/-- Settles O39: the meaning is a block store of the registers up to V[x]. -/
theorem blockStore : Obligations.BlockStore := by
  intro x s hwf inRange
  obtain ⟨t, hexec, hread, hpc, hframe⟩ := exec_store hwf (getVs_length s _) (by omega) (exec_ldMemVx x s)
  refine ⟨t, hexec, fun r hr => Option.some.inj ?_, hpc, hframe.mono ?_⟩
  · rw [hread r.toNat (by omega), getVs_getElem?_toNat s (by omega)]
  · rintro p (rfl | ⟨k, hk, rfl⟩)
    · exact .inl rfl
    · exact .inr ⟨k, by omega, rfl⟩

/-- Settles O40: the meaning is a block load into the registers up to V[x]. -/
theorem blockLoad : Obligations.BlockLoad := by
  intro x s inRange
  have hbase : s.base = s.i.toNat := rfl
  have hlen := Memory.readBytes_length s.mem s.base (x.toNat + 1)
  have hexec := exec_ldVxMem x s
  rw [execLdVxMem, State.checked_inRange (.inr (by omega))] at hexec
  refine ⟨_, hexec, fun r hr => Option.some.inj ?_, (setVs_pc 0 _ _).trans (State.advance_pc s), load_frame hlen⟩
  rw [getV_setVs_zero _ (by omega) (by omega), Memory.readBytes_getElem? _ _ (by omega)]

/-- Settles O41: each meaning is a checked access, of three, x + 1 or n bytes. -/
theorem indexOutOfRangeHalts : Obligations.IndexOutOfRangeHalts :=
  fun x y n s => ⟨fun h => exec_checked_outOfRange (exec_ldB x s) (by omega),
    fun h => ⟨exec_checked_outOfRange (exec_ldMemVx x s) (by omega), exec_checked_outOfRange (exec_ldVxMem x s) (by omega)⟩,
    fun hn h => exec_checked_outOfRange (exec_drw x y n s) (by omega)⟩

/-- Settles O42: PC after the store is I, so the fetch reads the first two of the stored bytes. -/
theorem storeIsFetchedNext : Obligations.StoreIsFetchedNext := by
  intro x s hwf hx inRange hi
  obtain ⟨t, hexec, hread, hpc, -⟩ := blockStore x s hwf inRange
  have first : t.pc.toNat = s.i.toNat := by rw [hpc, hi]
  refine ⟨t, hexec, ?_⟩
  have high : t.mem.read s.i.toNat = s.getV 0#4 := hread 0#4 (Nat.zero_le _)
  have low : t.mem.read (s.i.toNat + 1) = s.getV 1#4 := hread 1#4 hx
  rw [State.fetch_of_le (by omega), first, high, low, wordOf]

end

section
/-! PROOFS. The sprite draw, once and twice (spec/43_display.md R170, R172, R173). -/

namespace Sys2Proof.Machine

/-! ### What a draw in range answers (43 R172) -/

/-- The state a draw leaves, from the canvas it drew: cells and DIRTY from the canvas, VF the collision, PC advanced. -/
def State.withCanvas (s : State) (c : Canvas) : State :=
  { s.advance with disp := c.disp, dirty := c.dirty }.setVF (collisionFlag c.hit)

theorem exec_drw_inRange {x y n : Nibble} {s : State} (h : n.toNat = 0 ∨ s.i.toNat + n.toNat - 1 ≤ 0x0FFF) :
    exec (.drw x y n) s = .next (s.withCanvas (s.drawn x y n)) := by
  have hbase : s.base = s.i.toNat := rfl
  rw [exec_drw, execDrw, State.checked_inRange (by omega), State.withCanvas]

/-- The cells of the grid a sprite covers. -/
def Covered (rows : List Byte) (x0 y0 r c : Nat) : Prop := r < 32 ∧ c < 64 ∧ spriteCovers rows x0 y0 r c = true

theorem State.drawn_toggled (s : State) (x y n : Nibble) :
    Toggled (Covered (s.mem.readBytes s.i.toNat n.toNat) ((s.getV x).toNat % 64) ((s.getV y).toNat % 32))
      ⟨s.disp, false, s.dirty⟩ (s.drawn x y n) :=
  drawRows_toggled _ _ _ _

@[simp] theorem State.withCanvas_pc (s : State) (c : Canvas) : (s.withCanvas c).pc = s.pc + 2#16 := rfl

@[simp] theorem State.withCanvas_getVF (s : State) (c : Canvas) : (s.withCanvas c).getV 15#4 = collisionFlag c.hit :=
  State.getV_setVF_same _ _

theorem collisionFlag_eq_one_iff (hit : Bool) : collisionFlag hit = 1#8 ↔ hit = true := by
  cases hit <;> decide

theorem collisionFlag_eq_zero_iff (hit : Bool) : collisionFlag hit = 0#8 ↔ ¬ hit = true := by
  cases hit <;> decide

/-- A draw touches PC, VF, DIRTY and cells of the grid; a position off the grid is no cell. -/
theorem State.withCanvas_frame (s : State) (c : Canvas) :
    Frame (fun p => p = .pc ∨ p = .reg 15#4 ∨ p = .dirty ∨ ∃ r c, r < 32 ∧ c < 64 ∧ p = .cell r c) s (s.withCanvas c) := by
  intro p hp
  simp only [not_or] at hp
  obtain ⟨notPc, notVF, notDirty, notCell⟩ := hp
  cases p with
  | pc => exact absurd rfl notPc
  | dirty => exact absurd rfl notDirty
  | reg r => exact (State.getV_setVF _ r _).trans (if_neg fun h => notVF (by rw [h]))
  | cell r k =>
    have offGrid : ¬ (r < 32 ∧ k < 64) := fun h => notCell ⟨r, k, h.1, h.2, rfl⟩
    exact (Display.cell_out _ offGrid).trans (Display.cell_out _ offGrid).symm
  | schedule => exact ⟨rfl, rfl⟩
  | _ => rfl

/-! ### The same cells toggled twice (43 R173) -/

section
variable {P : Nat → Nat → Prop} {a b b' c : Canvas}

theorem Toggled.twice_disp (h : Toggled P a b) (h' : Toggled P b' c) (same : b'.disp = b.disp) : c.disp = a.disp := by
  refine Display.ext_cell fun r k => ?_
  by_cases covered : P r k
  · rw [h'.on r k covered, same, h.on r k covered, Bool.not_not]
  · rw [h'.off r k covered, same, h.off r k covered]

theorem Toggled.hit_iff (h : Toggled P a b) (fresh : a.hit = false) :
    b.hit = true ↔ ∃ r k, P r k ∧ a.disp.cell r k = true := by
  rw [h.hit, fresh]
  exact or_iff_right Bool.false_ne_true

/-- The second of two draws collides exactly where the first turned a cell on. -/
theorem Toggled.twice_hit_iff (onGrid : ∀ r k, P r k → r < 32 ∧ k < 64) (h : Toggled P a b) (h' : Toggled P b' c)
    (same : b'.disp = b.disp) (fresh : b'.hit = false) :
    c.hit = true ↔ ∃ r k, r < 32 ∧ k < 64 ∧ a.disp.cell r k = false ∧ b.disp.cell r k = true := by
  rw [h'.hit_iff fresh, same]
  constructor
  · rintro ⟨r, k, covered, lit⟩
    have wasUnlit : a.disp.cell r k = false := by simpa [h.on r k covered] using lit
    exact ⟨r, k, (onGrid r k covered).1, (onGrid r k covered).2, wasUnlit, lit⟩
  · rintro ⟨r, k, -, -, wasUnlit, lit⟩
    refine ⟨r, k, ?_, lit⟩
    by_contra uncovered
    rw [h.off r k uncovered, wasUnlit] at lit
    cases lit

/-- Over unlit cells the first draw does not collide, and the second does where a cell is covered. -/
theorem Toggled.twice_over_unlit (h : Toggled P a b) (h' : Toggled P b' c) (same : b'.disp = b.disp)
    (fresh : a.hit = false) (fresh' : b'.hit = false) (unlit : ∀ r k, P r k → a.disp.cell r k = false) :
    ¬ b.hit = true ∧ ((∃ r k, P r k) → c.hit = true) := by
  rw [h.hit_iff fresh, h'.hit_iff fresh', same]
  refine ⟨?_, ?_⟩
  · rintro ⟨r, k, covered, lit⟩
    rw [unlit r k covered] at lit
    cases lit
  · rintro ⟨r, k, covered⟩
    exact ⟨r, k, covered, by rw [h.on r k covered, unlit r k covered, Bool.not_false]⟩

/-- Over lit cells the second draw does not collide, and the first does where a cell is covered. -/
theorem Toggled.twice_over_lit (h : Toggled P a b) (h' : Toggled P b' c) (same : b'.disp = b.disp)
    (fresh : a.hit = false) (fresh' : b'.hit = false) (lit : ∀ r k, P r k → a.disp.cell r k = true) :
    ¬ c.hit = true ∧ ((∃ r k, P r k) → b.hit = true) := by
  rw [h.hit_iff fresh, h'.hit_iff fresh', same]
  refine ⟨?_, ?_⟩
  · rintro ⟨r, k, covered, stillLit⟩
    rw [h.on r k covered, lit r k covered] at stillLit
    cases stillLit
  · rintro ⟨r, k, covered⟩
    exact ⟨r, k, covered, lit r k covered⟩

end

end Sys2Proof.Machine

open Sys2Proof Sys2Proof.Machine

/-- Settles O44: the draw toggles the covered cells of the grid, none twice, and its canvas tells the collision and DIRTY. -/
theorem drawTogglesCoveredCells : Obligations.DrawTogglesCoveredCells := by
  intro x y n s inRange covers
  have toggled := s.drawn_toggled x y n
  have hit : (s.drawn x y n).hit = true ↔ ∃ r c, r < 32 ∧ c < 64 ∧ covers r c = true ∧ s.disp.cell r c = true := by
    simpa only [Covered, and_assoc] using toggled.hit_iff rfl
  refine ⟨_, exec_drw_inRange inRange, State.withCanvas_pc _ _, fun r c hr hc => drawRows_cell _ _ _ _ hr hc, ?_, ?_,
    toggled.dirty, State.withCanvas_frame _ _⟩
  · rw [State.withCanvas_getVF, collisionFlag_eq_one_iff, hit]; exact id
  · rw [State.withCanvas_getVF, collisionFlag_eq_zero_iff, hit]; exact id

/-- Settles O45: both draws toggle the same cells of the grid, the second from the display the first left. -/
theorem drawTwiceRestores : Obligations.DrawTwiceRestores := by
  intro x y x' y' n s t s' u inRange hfirst hdisp hi hrows hcol hrow hsecond covered
  rw [exec_drw_inRange inRange] at hfirst
  rw [exec_drw_inRange (hi ▸ inRange)] at hsecond
  obtain rfl := Host.Outcome.next.inj hfirst
  obtain rfl := Host.Outcome.next.inj hsecond
  have first := s.drawn_toggled x y n
  have second := s'.drawn_toggled x' y' n
  rw [hrows, hcol, hrow] at second
  have onGrid (r c : Nat) (h : covered r c) : r < 32 ∧ c < 64 := ⟨h.1, h.2.1⟩
  simp only [State.withCanvas_getVF, collisionFlag_eq_one_iff, collisionFlag_eq_zero_iff]
  exact ⟨first.twice_disp second hdisp, first.twice_hit_iff onGrid second hdisp rfl, em _,
    first.twice_over_unlit second hdisp rfl rfl, first.twice_over_lit second hdisp rfl rfl⟩

end

section
/-! PROOFS. What no instruction reads, and what only four instructions read: one state and a second one that differs from it
in host-only pieces go to states that differ only there (spec/10_state.md R31, R33 to R36, R38). -/

namespace Sys2Proof.Machine

/-! ### States that differ in host-only pieces -/

/-- Values for the pieces of state an instruction has no operand in. -/
structure Overlay where
  st : Byte
  dirty : Bool
  halt : Halt
  diag : Option Diagnostic
  host : List HostOp
  opNo : Nat

/-- The state with these values in their places. -/
def State.overlay (s : State) (o : Overlay) : State :=
  { s with st := o.st, dirty := o.dirty, halt := o.halt, diag := o.diag, host := o.host, opNo := o.opNo }

/-- The values are the state's own, outside the listed pieces. -/
def Overlay.Agrees (ps : List Piece) (o : Overlay) (s : State) : Prop :=
  (.sound ∉ ps → o.st = s.st) ∧ (.dirty ∉ ps → o.dirty = s.dirty) ∧ (.halt ∉ ps → o.halt = s.halt) ∧
  (.diag ∉ ps → o.diag = s.diag) ∧ (.schedule ∉ ps → o.host = s.host ∧ o.opNo = s.opNo)

/-- `t` is `s` but for the listed host-only pieces. -/
def Twin (ps : List Piece) (s t : State) : Prop := ∃ o : Overlay, o.Agrees ps s ∧ t = s.overlay o

theorem Twin.frame {ps : List Piece} {s t : State} (h : Twin ps s t) : FrameBut ps s t := by
  obtain ⟨o, ⟨hst, hdirty, hhalt, hdiag, hschedule⟩, rfl⟩ := h
  intro p hp
  cases p with
  | sound => exact hst hp
  | dirty => exact hdirty hp
  | halt => exact hhalt hp
  | diag => exact hdiag hp
  | schedule => exact hschedule hp
  | _ => rfl

section
variable {ps : List Piece} {s t s' t' : State}

/-! ### The shared shapes of a meaning keep twins twins -/

theorem Twin.raise (h : Twin ps s s') (c : FatalCondition) : Twin ps (s.raise c) (s'.raise c) := by
  obtain ⟨o, ⟨hst, hdirty, -, hdiag, hschedule⟩, rfl⟩ := h
  exact ⟨{ o with halt := .halted (.fatal c) }, ⟨hst, hdirty, fun _ => rfl, hdiag, hschedule⟩, rfl⟩

theorem Twin.checked (h : Twin ps s s') (h' : Twin ps t t') (base len : Nat) :
    Twin ps (s.checked base len t) (s'.checked base len t') := by
  rw [State.checked_eq, State.checked_eq]
  split_ifs
  · exact h.raise _
  · exact h'

theorem Twin.skipWhen (h : Twin ps s s') (taken : Bool) : Twin ps (skipWhen taken s) (skipWhen taken s') := by
  obtain ⟨o, ho, rfl⟩ := h
  rw [skipWhen_eq, skipWhen_eq]
  exact ⟨o, ho, rfl⟩

theorem Twin.skipOnKey (h : Twin ps s s') (keys : s'.keys = s.keys) (x : Nibble) (down : Bool) :
    Twin ps (skipOnKey x down s) (skipOnKey x down s') := by
  have value : s'.getV x = s.getV x := by obtain ⟨o, -, rfl⟩ := h; rfl
  unfold Machine.skipOnKey
  rw [value]
  split
  · exact h.raise _
  · rw [State.keyDown, State.keyDown, keys]
    exact h.skipWhen _

theorem setVs_overlay (o : Overlay) (bs : List Byte) : ∀ (k : Nat) (s : State),
    setVs k bs (s.overlay o) = (setVs k bs s).overlay o := by
  induction bs with
  | nil => exact fun _ _ => rfl
  | cons b bs ih => exact fun k s => ih (k + 1) (s.setV (BitVec.ofNat 4 k) b)

theorem Twin.setVs (h : Twin ps s s') (k : Nat) (bs : List Byte) : Twin ps (setVs k bs s) (setVs k bs s') := by
  obtain ⟨o, ho, rfl⟩ := h
  refine ⟨o, ?_, setVs_overlay o bs k s⟩
  obtain ⟨w, hw⟩ := setVs_eq bs k s
  rw [hw]
  exact ho

/-- Draws of one sprite on the same cells end on the same cells with the same collision; DIRTY follows DIRTY alone. -/
theorem Toggled.determined {P : Nat → Nat → Prop} {a a' b b' : Canvas} (h : Toggled P a b) (h' : Toggled P a' b')
    (disp : a'.disp = a.disp) (hit : a'.hit = a.hit) :
    b'.disp = b.disp ∧ b'.hit = b.hit ∧ (a'.dirty = a.dirty → b'.dirty = b.dirty) := by
  refine ⟨Display.ext_cell fun r k => ?_, Bool.eq_iff_iff.2 ?_, fun dirty => Bool.eq_iff_iff.2 ?_⟩
  · by_cases covered : P r k
    · rw [h'.on r k covered, h.on r k covered, disp]
    · rw [h'.off r k covered, h.off r k covered, disp]
  · rw [h'.hit, h.hit, disp, hit]
  · rw [h'.dirty, h.dirty, dirty]

theorem Twin.withCanvas (h : Twin ps s s') (x y n : Nibble) :
    Twin ps (s.withCanvas (s.drawn x y n)) (s'.withCanvas (s'.drawn x y n)) := by
  obtain ⟨o, ⟨hst, hdirty, hhalt, hdiag, hschedule⟩, rfl⟩ := h
  obtain ⟨disp, hit, dirty⟩ := (s.drawn_toggled x y n).determined ((s.overlay o).drawn_toggled x y n) rfl rfl
  refine ⟨{ o with dirty := ((s.overlay o).drawn x y n).dirty },
    ⟨hst, fun hp => dirty (hdirty hp), hhalt, hdiag, hschedule⟩, ?_⟩
  rw [State.withCanvas, State.withCanvas, disp, hit]
  rfl

theorem exec_ret_twin (h : Twin ps s s') : ∃ t u, exec .ret s = .next t ∧ exec .ret s' = .next u ∧ Twin ps t u := by
  have depth : s'.sp.val = s.sp.val := by obtain ⟨o, -, rfl⟩ := h; rfl
  by_cases empty : s.sp.val = 0
  · exact ⟨_, _, execRet_empty empty, execRet_empty (depth.trans empty), h.raise _⟩
  · have top : s.sp.val = (⟨s.sp.val - 1, by omega⟩ : Fin 16).val + 1 := by simp only; omega
    obtain ⟨t, ht, eqt, hsp⟩ := execRet_some top
    obtain ⟨u, hu, equ, hsp'⟩ := execRet_some (depth.trans top)
    refine ⟨_, _, ht, hu, ?_⟩
    obtain ⟨o, ho, rfl⟩ := h
    rw [equ, eqt, Fin.ext (hsp'.trans hsp.symm)]
    exact ⟨o, ho, rfl⟩

theorem exec_call_twin (nnn : Addr12) (h : Twin ps s s') :
    ∃ t u, exec (.call nnn) s = .next t ∧ exec (.call nnn) s' = .next u ∧ Twin ps t u := by
  have depth : s'.sp.val = s.sp.val := by obtain ⟨o, -, rfl⟩ := h; rfl
  by_cases room : s.sp.val < 16
  · obtain ⟨t, ht, eqt, hsp, hstack⟩ := execCall_room nnn room
    obtain ⟨u, hu, equ, hsp', hstack'⟩ := execCall_room nnn (depth.trans_lt room)
    refine ⟨_, _, ht, hu, ?_⟩
    obtain ⟨o, ho, rfl⟩ := h
    have stack : u.stack = t.stack :=
      Vector.ext fun k hk => (hstack' ⟨k, hk⟩).trans (hstack ⟨k, hk⟩).symm
    rw [equ, eqt, Fin.ext (hsp'.trans hsp.symm), stack]
    exact ⟨o, ho, rfl⟩
  · have full : s.sp.val = 16 := by omega
    exact ⟨_, _, execCall_full nnn full, execCall_full nnn (depth.trans full), h.raise _⟩

theorem exec_ldVxK_twin (x : Nibble) (h : Twin ps s s') (keys : s'.keys = s.keys) :
    ∃ t u, exec (.ldVxK x) s = .next t ∧ exec (.ldVxK x) s' = .next u ∧ Twin ps t u := by
  cases hk : lowestKey s.keys with
  | none =>
    exact ⟨s, s', exec_ldVxK_of_lowestKey_eq_none x hk, exec_ldVxK_of_lowestKey_eq_none x (keys ▸ hk), h⟩
  | some k =>
    refine ⟨_, _, exec_ldVxK_of_lowestKey_eq_some x hk, exec_ldVxK_of_lowestKey_eq_some x (keys ▸ hk), ?_⟩
    obtain ⟨o, ho, rfl⟩ := h
    exact ⟨o, ho, rfl⟩

/-! ### Every instruction keeps twins twins -/

/-- Twins go to twins under every instruction, the inputs being the same where the instruction looks at them. -/
theorem exec_twin (i : Instr) (h : Twin ps s s') (inputs : i.readsInput = true → s'.keys = s.keys ∧ s'.rnd = s.rnd) :
    ∃ t u, exec i s = .next t ∧ exec i s' = .next u ∧ Twin ps t u := by
  have ⟨o, ho, hs'⟩ := h
  have ⟨hst, hdirty, hhalt, hdiag, hschedule⟩ := ho
  cases i with
  | ret => exact exec_ret_twin h
  | call nnn => exact exec_call_twin nnn h
  | ldVxK x => exact exec_ldVxK_twin x h (inputs rfl).1
  | skp x => exact ⟨_, _, exec_skp x s, exec_skp x s', h.skipOnKey (inputs rfl).1 x true⟩
  | sknp x => exact ⟨_, _, exec_sknp x s, exec_sknp x s', h.skipOnKey (inputs rfl).1 x false⟩
  | seImm | sneImm | seReg | sneReg =>
    refine ⟨_, _, rfl, rfl, ?_⟩
    rw [hs']
    exact Twin.skipWhen ⟨o, ho, rfl⟩ _
  | rnd x nn =>
    refine ⟨_, _, exec_rnd x nn s, exec_rnd x nn s', ?_⟩
    rw [(inputs rfl).2, hs']
    exact ⟨o, ho, rfl⟩
  | cls =>
    refine ⟨_, _, exec_cls s, exec_cls s', ?_⟩
    rw [hs']
    exact ⟨{ o with dirty := true }, ⟨hst, fun _ => rfl, hhalt, hdiag, hschedule⟩, rfl⟩
  | ldStVx x =>
    refine ⟨_, _, exec_ldStVx x s, exec_ldStVx x s', ?_⟩
    rw [hs']
    exact ⟨{ o with st := s.getV x }, ⟨fun _ => rfl, hdirty, hhalt, hdiag, hschedule⟩, rfl⟩
  | drw x y n =>
    refine ⟨_, _, exec_drw x y n s, exec_drw x y n s', ?_⟩
    have base : s'.base = s.base := by rw [hs']; rfl
    rw [base]
    exact h.checked (h.withCanvas x y n) _ _
  | ldB x =>
    subst hs'
    refine ⟨_, _, exec_ldB x s, exec_ldB x _, h.checked ?_ _ _⟩
    exact ⟨o, ho, rfl⟩
  | ldMemVx x =>
    subst hs'
    refine ⟨_, _, exec_ldMemVx x s, exec_ldMemVx x _, h.checked ?_ _ _⟩
    exact ⟨o, ho, rfl⟩
  | ldVxMem x =>
    subst hs'
    refine ⟨_, _, exec_ldVxMem x s, exec_ldVxMem x _, h.checked ?_ _ _⟩
    exact Twin.setVs (s := s.advance) ⟨o, ho, rfl⟩ _ _
  | _ =>
    subst hs'
    exact ⟨_, _, rfl, rfl, o, ho, rfl⟩

end

end Sys2Proof.Machine

open Sys2Proof Sys2Proof.Machine

/-- Settles O55: the second state is a twin of the first with the same schedule, and so the same inputs. -/
theorem hostOnlyStateIsNeverRead : Obligations.HostOnlyStateIsNeverRead := by
  intro i s st dirty halt diag
  have twins : Twin [.sound, .dirty, .halt, .diag] s { s with st := st, dirty := dirty, halt := halt, diag := diag } :=
    ⟨⟨st, dirty, halt, diag, s.host, s.opNo⟩, by simp [Overlay.Agrees], rfl⟩
  obtain ⟨t, u, ht, hu, h⟩ := exec_twin i twins fun _ => ⟨rfl, rfl⟩
  exact ⟨t, u, ht, hu, h.frame⟩

/-- Settles O56: the second state is a twin of the first that differs in the schedule, which the instruction has no need of. -/
theorem otherInstructionsIgnoreInputs : Obligations.OtherInstructionsIgnoreInputs := by
  intro i s host opNo reads
  have twins : Twin [.schedule] s { s with host := host, opNo := opNo } :=
    ⟨⟨s.st, s.dirty, s.halt, s.diag, host, opNo⟩, by simp [Overlay.Agrees], rfl⟩
  obtain ⟨t, u, ht, hu, h⟩ := exec_twin i twins fun reads' => by rw [reads] at reads'; cases reads'
  exact ⟨t, u, ht, hu, h.frame⟩

end
